-- ==== Sys2Proof/Word.lean ====
section
/-! DEFINITION. The 32-bit signed word of the csa3 machine and the reduction `wrap32`.

Every register value, every data cell and every operand is an `int32`
(spec/10_state.md R10, R25; spec/30_encoding.md R89). It is held as 32 bits and read as a
two's-complement integer by `BitVec.toInt`. -/

namespace Sys2Proof

/-- An int32 (spec/00_scope.md section 5): 32 bits, read as a signed integer by `toInt`. -/
abbrev Word := BitVec 32

/-- `wrap32(v)`: the unique int32 congruent to `v` modulo 2^32 (spec/00_scope.md section 5). -/
def wrap32 (v : Int) : Word := BitVec.ofInt 32 v

/-- Whether an integer is an int32: -2^31 to 2^31 - 1 (spec/00_scope.md section 5). -/
abbrev IsInt32 (v : Int) : Prop := -2147483648 ≤ v ∧ v ≤ 2147483647

end Sys2Proof
end

