-- ==== Sys2Proof/Syntax.lean ====
section
/-! DEFINITION. The instruction set as syntax: opcodes, instruction records, the payload of an
instruction cell, and the twelve instructions with their operands (spec/30_encoding.md). -/

namespace Sys2Proof

/-- The opcode set, exactly these twelve (spec/30_encoding.md R81). -/
inductive Opcode where
  | add | sub | mod | inc | dec | ld | st | mv | be | bne | jmp | hlt
deriving DecidableEq, Repr

/-- What an instruction cell may show in the place of its opcode when it is none of the twelve: a
name in a record, or the number of a W32 word's field (spec/30_encoding.md R86, R91). -/
inductive OpcodeValue where
  | name (s : String)
  | number (n : Nat)
deriving DecidableEq, Repr

/-- The opcode of a record as it lies in a cell: one of the twelve, or a name outside them, which
only an image handed over in memory can carry (spec/30_encoding.md R86, spec/70_reset_and_hazards.md
R191). -/
inductive OpcodeField where
  | known (op : Opcode)
  | unknown (name : String)
deriving DecidableEq, Repr

/-- An instruction record `{opcode, operand list}` (spec/30_encoding.md R80). The operands are
int32 integers (R89); their number is not checked before the record is fetched (R85). -/
structure Record where
  opcode : OpcodeField
  operands : List Word
deriving DecidableEq, Repr

/-- What an instruction cell holds: a record (spec/20_memory.md R61), or the W32 word that packs one
in a hardware realisation of the cell (spec/30_encoding.md R90). DESIGN CHOICE, log 7. -/
inductive Payload where
  | record (r : Record)
  | word (w : BitVec 32)
deriving DecidableEq, Repr

/-- The operand formats (spec/30_encoding.md R82). -/
inductive Format where
  | rrr | rr | ar | ra | t | n
deriving DecidableEq, Repr

/-- The format of each opcode (spec/30_encoding.md R82). -/
def Opcode.format : Opcode → Format
  | .add => .rrr
  | .sub => .rrr
  | .mod => .rrr
  | .inc => .rr
  | .dec => .rr
  | .ld => .ar
  | .st => .ra
  | .mv => .rr
  | .be => .t
  | .bne => .t
  | .jmp => .t
  | .hlt => .n

/-- How many operands a format has (spec/30_encoding.md R82, column "Arity"). -/
def Format.arity : Format → Nat
  | .rrr => 3
  | .rr => 2
  | .ar => 2
  | .ra => 2
  | .t => 1
  | .n => 0

/-- The arity of an opcode (spec/30_encoding.md R82). -/
def Opcode.arity (op : Opcode) : Nat := op.format.arity

/-- An instruction: an opcode with the operands its format names, each an integer as it stands in
the record (spec/30_encoding.md R82, R83). A register operand is NOT yet checked to name a register:
that check is a part of the cycle and can fail (spec/10_state.md R13). -/
inductive Instr where
  /-- ADD r1, r2, rres (spec/40_arithmetic.md R101). -/
  | add (r1 r2 rres : Word)
  /-- SUB r1, r2, rres (R102). -/
  | sub (r1 r2 rres : Word)
  /-- MOD r1, r2, rres (R103). -/
  | mod (r1 r2 rres : Word)
  /-- INC r, rres (R104). -/
  | inc (r rres : Word)
  /-- DEC r, rres (R105). -/
  | dec (r rres : Word)
  /-- LD addr, rres (spec/41_data_movement.md R120). -/
  | ld (addr rres : Word)
  /-- ST r, addr (R121). -/
  | st (r addr : Word)
  /-- MV r1, rres (R122). -/
  | mv (r1 rres : Word)
  /-- BE target (spec/42_control_flow.md R130). -/
  | be (target : Word)
  /-- BNE target (R131). -/
  | bne (target : Word)
  /-- JMP target (R132). -/
  | jmp (target : Word)
  /-- HLT (R133). -/
  | hlt
deriving DecidableEq, Repr

/-- The opcode of an instruction. -/
def Instr.opcode : Instr → Opcode
  | .add _ _ _ => .add
  | .sub _ _ _ => .sub
  | .mod _ _ _ => .mod
  | .inc _ _ => .inc
  | .dec _ _ => .dec
  | .ld _ _ => .ld
  | .st _ _ => .st
  | .mv _ _ => .mv
  | .be _ => .be
  | .bne _ => .bne
  | .jmp _ => .jmp
  | .hlt => .hlt

/-- The operand list of an instruction, in record order (spec/30_encoding.md R82). -/
def Instr.operands : Instr → List Word
  | .add r1 r2 rres => [r1, r2, rres]
  | .sub r1 r2 rres => [r1, r2, rres]
  | .mod r1 r2 rres => [r1, r2, rres]
  | .inc r rres => [r, rres]
  | .dec r rres => [r, rres]
  | .ld addr rres => [addr, rres]
  | .st r addr => [r, addr]
  | .mv r1 rres => [r1, rres]
  | .be target => [target]
  | .bne target => [target]
  | .jmp target => [target]
  | .hlt => []

/-- The record of an instruction (spec/30_encoding.md R80). -/
def Instr.toRecord (i : Instr) : Record := ⟨.known i.opcode, i.operands⟩

/-- The register-index operands of an instruction, in operand order (spec/30_encoding.md R82): the
ones the decode checks (spec/15_datapath_control.md R44 line 11). -/
def Instr.registerOperands : Instr → List Word
  | .add r1 r2 rres => [r1, r2, rres]
  | .sub r1 r2 rres => [r1, r2, rres]
  | .mod r1 r2 rres => [r1, r2, rres]
  | .inc r rres => [r, rres]
  | .dec r rres => [r, rres]
  | .ld _ rres => [rres]
  | .st r _ => [r]
  | .mv r1 rres => [r1, rres]
  | .be _ => []
  | .bne _ => []
  | .jmp _ => []
  | .hlt => []

/-- The address and target operands of an instruction (spec/30_encoding.md R82): literals, used as
they stand (R83). -/
def Instr.addressOperands : Instr → List Word
  | .add _ _ _ => []
  | .sub _ _ _ => []
  | .mod _ _ _ => []
  | .inc _ _ => []
  | .dec _ _ => []
  | .ld addr _ => [addr]
  | .st _ addr => [addr]
  | .mv _ _ => []
  | .be target => [target]
  | .bne target => [target]
  | .jmp target => [target]
  | .hlt => []

end Sys2Proof
end

