-- ==== Sys2Proof/WellFormed.lean ====
section
/-! DEFINITION. When an instruction is well formed: every register operand names a general register
(spec/10_state.md R13). When it has a W32 form (spec/30_encoding.md R90). -/

namespace Sys2Proof

/-- A legal register-index operand: an integer i with 0 <= i <= 3 (spec/10_state.md R13). -/
abbrev IsRegisterIndex (w : Word) : Prop := 0 ≤ w.toInt ∧ w.toInt ≤ 3

/-- A well-formed instruction: all its register operands are legal. An address or target has no
legal range as an encoding (spec/30_encoding.md R92). -/
abbrev Instr.WellFormed (i : Instr) : Prop :=
  i.registerOperands.all (fun r => decide (IsRegisterIndex r)) = true

/-- An instruction that has a W32 form: every register operand in 0..15 and every address or target
in 0..2^24 - 1 (spec/30_encoding.md R90). -/
abbrev Instr.Packable (i : Instr) : Prop :=
  i.registerOperands.all (fun r => decide (r.toNat < 16)) = true ∧
    i.addressOperands.all (fun a => decide (a.toNat < 16777216)) = true

/-- A record whose opcode is one of the twelve and whose operand count is that opcode's arity
(spec/30_encoding.md R85, R86). -/
def Record.wellFormed (r : Record) : Bool :=
  match r.opcode with
  | .known op => r.operands.length == op.arity
  | .unknown _ => false

end Sys2Proof
end

