-- ==== Sys2Proof/Decode.lean ====
section
/-! DEFINITION. The decoder (spec/30_encoding.md R95): from an instruction record, or from the W32
word that packs one (R90), to an instruction; total, rejecting by name. After it, in the same file,
the encoder, written from the same tables. -/

namespace Sys2Proof

/-- Why the decoder rejects an instruction cell (spec/30_encoding.md R85, R86, R91). -/
inductive DecodeError where
  /-- The opcode is none of the twelve. -/
  | unknownOpcode (op : OpcodeValue)
  /-- The operand count differs from the opcode's arity; `none` for a W32 word with a must-be-zero
  bit set, which carries no count (log 8). -/
  | malformedInstruction (op : Opcode) (count : Option Nat)
deriving DecidableEq, Repr

/-! ## The record -/

/-- The instruction an opcode and its operands stand for, by position (spec/30_encoding.md R82);
none when the operand count is not the opcode's arity. -/
def instrOf : Opcode → List Word → Option Instr
  | .add, [r1, r2, rres] => some (.add r1 r2 rres)
  | .sub, [r1, r2, rres] => some (.sub r1 r2 rres)
  | .mod, [r1, r2, rres] => some (.mod r1 r2 rres)
  | .inc, [r, rres] => some (.inc r rres)
  | .dec, [r, rres] => some (.dec r rres)
  | .ld, [addr, rres] => some (.ld addr rres)
  | .st, [r, addr] => some (.st r addr)
  | .mv, [r1, rres] => some (.mv r1 rres)
  | .be, [target] => some (.be target)
  | .bne, [target] => some (.bne target)
  | .jmp, [target] => some (.jmp target)
  | .hlt, [] => some .hlt
  | _, _ => none

/-- Decoding a record: the opcode is tested before the operand count (spec/60_exceptions.md R173). -/
def decodeRecord (r : Record) : Except DecodeError Instr :=
  match r.opcode with
  | .unknown s => .error (.unknownOpcode (.name s))
  | .known op =>
    match instrOf op r.operands with
    | some i => .ok i
    | none => .error (.malformedInstruction op (some r.operands.length))

/-! ## The W32 word -/

/-- The opcode numbers, in the order of the source's table (spec/30_encoding.md R90). -/
def opcodeNumber : Opcode → BitVec 4
  | .add => 0
  | .sub => 1
  | .mod => 2
  | .inc => 3
  | .dec => 4
  | .ld => 5
  | .st => 6
  | .mv => 7
  | .be => 8
  | .bne => 9
  | .jmp => 10
  | .hlt => 11

/-- The opcode a number of the field `w[31:28]` stands for; 12 to 15 stand for none
(spec/30_encoding.md R91). -/
def opcodeOfNumber (n : BitVec 4) : Option Opcode :=
  match n.toNat with
  | 0 => some .add
  | 1 => some .sub
  | 2 => some .mod
  | 3 => some .inc
  | 4 => some .dec
  | 5 => some .ld
  | 6 => some .st
  | 7 => some .mv
  | 8 => some .be
  | 9 => some .bne
  | 10 => some .jmp
  | 11 => some .hlt
  | _ => none

/-- One row of the W32 table: a word is the row's instruction when `w AND mask = pattern`
(spec/30_encoding.md R90, columns "match" and "mask"). -/
structure W32Row where
  op : Opcode
  pattern : BitVec 32
  mask : BitVec 32
deriving DecidableEq, Repr

/-- The W32 row of an opcode (spec/30_encoding.md R90; spec/opcode_table.json). -/
def w32Row : Opcode → W32Row
  | .add => ⟨.add, 0x00000000, 0xF000FFFF⟩
  | .sub => ⟨.sub, 0x10000000, 0xF000FFFF⟩
  | .mod => ⟨.mod, 0x20000000, 0xF000FFFF⟩
  | .inc => ⟨.inc, 0x30000000, 0xF00FFFFF⟩
  | .dec => ⟨.dec, 0x40000000, 0xF00FFFFF⟩
  | .ld => ⟨.ld, 0x50000000, 0xF0000000⟩
  | .st => ⟨.st, 0x60000000, 0xF0000000⟩
  | .mv => ⟨.mv, 0x70000000, 0xF00FFFFF⟩
  | .be => ⟨.be, 0x80000000, 0xFF000000⟩
  | .bne => ⟨.bne, 0x90000000, 0xFF000000⟩
  | .jmp => ⟨.jmp, 0xA0000000, 0xFF000000⟩
  | .hlt => ⟨.hlt, 0xB0000000, 0xFFFFFFFF⟩

/-- Whether a word is an instruction of a row (spec/30_encoding.md R90). -/
def W32Row.isMatch (row : W32Row) (w : BitVec 32) : Bool := w &&& row.mask == row.pattern

/-- The field `w[31:28]`. -/
def fieldOp (w : BitVec 32) : BitVec 4 := w.extractLsb' 28 4

/-- The register field `fa = w[27:24]`, zero-extended (spec/30_encoding.md R90). -/
def fieldA (w : BitVec 32) : Word := (w.extractLsb' 24 4).setWidth 32

/-- The register field `fb = w[23:20]`, zero-extended. -/
def fieldB (w : BitVec 32) : Word := (w.extractLsb' 20 4).setWidth 32

/-- The register field `fc = w[19:16]`, zero-extended. -/
def fieldC (w : BitVec 32) : Word := (w.extractLsb' 16 4).setWidth 32

/-- The address field `imm = w[23:0]`, zero-extended. -/
def fieldImm (w : BitVec 32) : Word := (w.extractLsb' 0 24).setWidth 32

/-- The operand list a word of a given format packs, in record order (spec/30_encoding.md R90: LD
keeps its register in `fa` and its address in `imm`, and lists the address first). -/
def unpackOperands (f : Format) (w : BitVec 32) : List Word :=
  match f with
  | .rrr => [fieldA w, fieldB w, fieldC w]
  | .rr => [fieldA w, fieldB w]
  | .ar => [fieldImm w, fieldA w]
  | .ra => [fieldA w, fieldImm w]
  | .t => [fieldImm w]
  | .n => []

/-- The record a W32 word packs; a word that matches no row is rejected (spec/30_encoding.md R90,
R91). -/
def unpack (w : BitVec 32) : Except DecodeError Record :=
  match opcodeOfNumber (fieldOp w) with
  | none => .error (.unknownOpcode (.number (fieldOp w).toNat))
  | some op =>
    if (w32Row op).isMatch w then .ok ⟨.known op, unpackOperands op.format w⟩
    else .error (.malformedInstruction op none)

/-- Decoding a W32 word: unpack it, then decode the record. -/
def decodeWord (w : BitVec 32) : Except DecodeError Instr :=
  match unpack w with
  | .error e => .error e
  | .ok r => decodeRecord r

/-- Decoding what an instruction cell holds. -/
def decodePayload : Payload → Except DecodeError Instr
  | .record r => decodeRecord r
  | .word w => decodeWord w

/-- The instruction the decoder reads from a row's bits as spec/opcode_table.json numbers them: the
instruction is one 32-bit word, so the bits above `nbits` are zero. No instruction is longer. -/
def decodeTableWord (nbits w : Nat) : Option Instr :=
  if nbits ≤ 32 then (decodeWord (BitVec.ofNat 32 (w % 2 ^ nbits))).toOption else none

/-! ## The encoder -/

/-- The low four bits of a register operand, in the place of a register field. -/
def regField (r : Word) : BitVec 4 := r.setWidth 4

/-- The low 24 bits of an address or target, in the place of `imm`. -/
def immField (a : Word) : BitVec 24 := a.setWidth 24

/-- A field's bits in their place in the word, `lo` being the field's lowest bit. -/
def place {n : Nat} (lo : Nat) (field : BitVec n) : BitVec 32 := field.setWidth 32 <<< lo

/-- The W32 word of an instruction, by the field table of spec/30_encoding.md R90: `op` in bits 31..28,
register fields in 27..24, 23..20 and 19..16, an address or target in 23..0, every other bit zero. It is
meant for an instruction that has a W32 form (`Instr.Packable`). -/
def encode (i : Instr) : BitVec 32 :=
  place 28 (opcodeNumber i.opcode) |||
  match i with
  | .add r1 r2 rres => place 24 (regField r1) ||| place 20 (regField r2) ||| place 16 (regField rres)
  | .sub r1 r2 rres => place 24 (regField r1) ||| place 20 (regField r2) ||| place 16 (regField rres)
  | .mod r1 r2 rres => place 24 (regField r1) ||| place 20 (regField r2) ||| place 16 (regField rres)
  | .inc r rres => place 24 (regField r) ||| place 20 (regField rres)
  | .dec r rres => place 24 (regField r) ||| place 20 (regField rres)
  | .ld addr rres => place 24 (regField rres) ||| place 0 (immField addr)
  | .st r addr => place 24 (regField r) ||| place 0 (immField addr)
  | .mv r1 rres => place 24 (regField r1) ||| place 20 (regField rres)
  | .be target => place 0 (immField target)
  | .bne target => place 0 (immField target)
  | .jmp target => place 0 (immField target)
  | .hlt => 0

/-- The W32 word of a record; only a record of the right arity whose operands fit the fields has one
(spec/30_encoding.md R90). -/
def packRecord (r : Record) : Option (BitVec 32) :=
  match decodeRecord r with
  | .ok i => if i.Packable then some (encode i) else none
  | .error _ => none

end Sys2Proof
end

