-- ==== Sys2Proof/Config.lean ====
section
/-! DEFINITION. What an implementation or a run fixes and no step changes (spec/00_scope.md R4 to R7),
and the free value of the zero flag (spec/10_state.md R16). -/

namespace Sys2Proof

/-- `MOD_CONVENTION`: the sign convention of MOD (spec/40_arithmetic.md R107, decision D12). -/
inductive ModConvention where
  | floored | truncated | euclidean
deriving DecidableEq, Repr

/-- `Z_NONARITH`: what LD, ST, MV, JMP and a taken BE or BNE do to Z (spec/10_state.md R16, decision
D11): any value (the spec's default), or one of the two concrete behaviours it names. -/
inductive ZNonArith where
  | anyValue | preserve | fromValue
deriving DecidableEq, Repr

/-- `EXEC_TICKS(op)` for the ten opcodes whose execute ticks the source does not give
(spec/15_datapath_control.md R38, decision D14). -/
structure ExecTicks where
  add : Nat
  sub : Nat
  mod : Nat
  inc : Nat
  dec : Nat
  ld : Nat
  st : Nat
  mv : Nat
  jmp : Nat
  hlt : Nat
deriving DecidableEq, Repr

/-- The execute ticks of an opcode, a conditional branch's one tick to evaluate the flag among them
(spec/15_datapath_control.md R38, R39); the further tick of a taken branch is the branch's own. -/
def ExecTicks.of (e : ExecTicks) : Opcode → Nat
  | .add => e.add
  | .sub => e.sub
  | .mod => e.mod
  | .inc => e.inc
  | .dec => e.dec
  | .ld => e.ld
  | .st => e.st
  | .mv => e.mv
  | .be => 1
  | .bne => 1
  | .jmp => e.jmp
  | .hlt => e.hlt

/-- The parameters of a run (spec/00_scope.md R5, R6, R7). They are no state in the spec; State holds
them because the step takes nothing else, and no step changes them (log 2). -/
structure Params where
  /-- `MEM_SIZE`, the number of cells of the memory (R5). -/
  memSize : Nat
  /-- `STEP_LIMIT`, the step ceiling (R6). -/
  stepLimit : Nat
  /-- `MOD_CONVENTION` (R7). -/
  modConvention : ModConvention
  /-- `EXEC_TICKS` (R7). -/
  execTicks : ExecTicks
  /-- `Z_NONARITH` (R7). -/
  zNonArith : ZNonArith
deriving DecidableEq, Repr

/-- The spec's default of `EXEC_TICKS`: 1 for each, 0 for HLT (spec/15_datapath_control.md R38). -/
def Config.defaultExecTicks : ExecTicks := ⟨1, 1, 1, 1, 1, 1, 1, 1, 1, 0⟩

/-- The parameters with the spec's defaults of R7, for a memory size and a step ceiling. -/
def Config.defaults (memSize stepLimit : Nat) : Params :=
  { memSize := memSize
    stepLimit := stepLimit
    modConvention := .floored
    execTicks := Config.defaultExecTicks
    zNonArith := .anyValue }

/-- The parameters of the machine right after reset. DESIGN CHOICE, log 3: the spec gives neither
MEM_SIZE nor STEP_LIMIT a value; 2^24 is the largest MEM_SIZE under which W32 is defined
(spec/00_scope.md R5), 10000 the STEP_LIMIT of spec/95_test_vectors.md. -/
def Config.resetParams : Params := Config.defaults 16777216 10000

/-- The largest MEM_SIZE: every address is a non-negative value of the signed pc (spec/00_scope.md
R5, decision D22). -/
def Config.maxMemSize : Nat := 2147483648

/-- The largest MEM_SIZE when W32 is used (spec/00_scope.md R5, decision D19). -/
def Config.maxPackedMemSize : Nat := 16777216

/-- FREE VALUE: the value Z takes after LD, ST, MV, JMP and a taken BE or BNE (spec/10_state.md R16;
93_implementation_defined.md U1), drawn anew each time: it has no body, so nothing can be proved of
it. Its arguments are the opcode, the number of the draw, the Z before and the value moved, so that
every behaviour the spec names (preserve, from_value) is one of its possible values (log 6). -/
opaque Config.freeZ (op : Opcode) (draw : Nat) (z : Bool) (v : Word) : Bool

end Sys2Proof
end

