-- ==== Sys2Proof/Machine/State.lean ====
section
/-! DEFINITION. The state of the csa3 machine (spec/10_state.md), its fatal conditions
(spec/60_exceptions.md R171), and its values right after reset (spec/10_state.md R24). -/

namespace Sys2Proof.Machine

/-- The eight run-time fatal conditions with their recorded information (spec/60_exceptions.md R171).
Each ends the run; nothing handles one (R174). -/
inductive Fault where
  /-- F1: an access at an address outside 0..MEM_SIZE-1; raised by the fetch, LD and ST. Safe: the
  spec raises it. -/
  | memoryOutOfBounds (addr : Int)
  /-- F2: a register operand outside 0..3; raised at decode by the eight opcodes with register
  operands. Safe: the spec raises it. -/
  | registerIndexOutOfBounds (i : Int)
  /-- F3: an operand count that is not the opcode's arity, or (count `none`) a must-be-zero bit set in
  a W32 word; raised at decode. Safe: the spec raises it. -/
  | malformedInstruction (op : Opcode) (count : Option Nat)
  /-- F4: an opcode outside the twelve; raised at decode. Safe: the spec raises it. -/
  | unknownOpcode (op : OpcodeValue)
  /-- F5: a cycle is about to start with instr_count >= STEP_LIMIT. Safe: the spec raises it. -/
  | stepLimitExceeded (count : Nat)
  /-- F6: the cell fetched is a data cell; raised at decode. Safe: the spec raises it (D3). -/
  | notAnInstruction (addr : Int)
  /-- F7: LD reads a cell that holds an instruction. Safe: the spec raises it (D4). -/
  | notADataCell (addr : Int)
  /-- F8: MOD with divisor zero. Safe: the spec raises it (D13). -/
  | divisionByZero
deriving DecidableEq, Repr

/-- Why a step has no meaning. -/
inductive Refusal where
  /-- Raised by an arm of `exec` whose instruction has no meaning yet (none is left). Safe. -/
  | notModelled (mnemonic : String)
  /-- Raised by `step` in a state whose status is Halted or Faulted: no step is taken from either
  (spec/10_state.md R22). Safe: the spec gives such a state no successor. -/
  | runEnded
deriving DecidableEq, Repr

/-- The run status (spec/10_state.md R22). -/
inductive RunStatus where
  | running
  | halted
  | faulted (reason : Fault)
deriving DecidableEq, Repr

/-- A memory cell: a signed 32-bit data word or an instruction (spec/20_memory.md R61). -/
inductive Cell where
  | data (v : Word)
  | instr (p : Payload)
deriving DecidableEq, Repr

/-- The memory: (cell address, cell) pairs, addresses strictly rising, no entry equal to `Data(0)`,
which an unlisted cell holds (the zero fill of spec/10_state.md R24). Cells, not bytes:
spec/20_memory.md R67 (log 1). -/
abbrev Memory := List (Nat × Cell)

/-- The whole state (spec/10_state.md), with the parameters of the run (log 2) and the model's own
counter of free values (log 6). -/
structure State where
  /-- The register file x[0..4]; x[4] is the program counter (R10, R12). -/
  x : Vector Word 5
  /-- The zero flag Z (R14). -/
  z : Bool
  /-- The memory array MEM (R17). -/
  mem : Memory
  /-- The current-instruction latch IR; `none` is "no content" (R18, R24). -/
  ir : Option Payload
  /-- `instr_count`, instructions retired (R20). -/
  instrCount : Nat
  /-- `tick_count`, ticks elapsed (R21). -/
  tickCount : Nat
  /-- The run status (R22). -/
  status : RunStatus
  /-- The parameters of the run (spec/00_scope.md R5 to R7). -/
  params : Params
  /-- How many free values of Z have been drawn; the model's own (log 6). -/
  freeDraws : Nat
deriving DecidableEq, Repr

/-- The machine right after reset: the launch values of spec/10_state.md R24 with no image loaded.
x[0..3] and Z have no value in the spec: DESIGN CHOICE 0, log 4, unsafe to rest on. -/
def State.reset : State :=
  { x := #v[0, 0, 0, 0, 0]
    z := false
    mem := []
    ir := none
    instrCount := 0
    tickCount := 0
    status := .running
    params := Config.resetParams
    freeDraws := 0 }

end Sys2Proof.Machine
end

