-- ==== Sys2Proof/Machine/Alu.lean ====
section
/-! DEFINITION. The ALU of the datapath (spec/15_datapath_control.md R30, R32): its input transforms,
its two operations, and the remainder under each sign convention (spec/40_arithmetic.md R107). -/

namespace Sys2Proof.Machine

/-- The input transforms of the ALU (spec/15_datapath_control.md R32). -/
inductive Transform where
  | pass | neg | inc
deriving DecidableEq, Repr

/-- The two operations of the ALU (R30, R32). -/
inductive AluOp where
  | addFamily | modulo
deriving DecidableEq, Repr

/-- The flag mode of an ALU evaluation (R33). -/
inductive FlagMode where
  | updatesFlag | preservesFlag
deriving DecidableEq, Repr

/-- `T(t, v)` (spec/15_datapath_control.md R32): pass-through, complement and increment, increment. -/
def Transform.apply : Transform → Word → Word
  | .pass, v => v
  | .neg, v => wrap32 ((~~~v).toInt + 1)
  | .inc, v => wrap32 (v.toInt + 1)

/-- The remainder of `a` by a non-zero `b` under a sign convention, by the definitions of
spec/40_arithmetic.md R107 (iii). -/
def remainder (c : ModConvention) (a b : Int) : Int :=
  match c with
  | .floored => a - b * a.fdiv b
  | .truncated => a - b * a.tdiv b
  | .euclidean => a - (b.natAbs : Int) * a.fdiv (b.natAbs : Int)

/-- `mod(a, b)` on int32 values (spec/40_arithmetic.md R107): a zero divisor is the fatal condition
`DivisionByZero`. -/
def modWord (c : ModConvention) (a b : Word) : Except Fault Word :=
  if b = 0 then .error .divisionByZero else .ok (wrap32 (remainder c a.toInt b.toInt))

/-- The result of an ALU evaluation (spec/15_datapath_control.md R32). -/
def aluResult (c : ModConvention) (l r : Word) (tl tr : Transform) (op : AluOp) :
    Except Fault Word :=
  match op with
  | .addFamily => .ok (wrap32 ((tl.apply l).toInt + (tr.apply r).toInt))
  | .modulo => modWord c (tl.apply l) (tr.apply r)

end Sys2Proof.Machine
end

