-- ==== Sys2Proof/Machine/Flags.lean ====
section
/-! DEFINITION. Every computation of the zero flag (spec/10_state.md R14 to R16): the flag of a result,
an ALU evaluation under its flag mode, and the free value that LD, ST, MV, JMP and a taken branch
leave in Z. -/

namespace Sys2Proof.Machine

/-- Z of a 32-bit result: set exactly when the wrapped result is zero (spec/40_arithmetic.md R108). -/
def zeroFlag (result : Word) : Bool := result == 0

/-- Z after an ALU evaluation: a flag-updating one writes it, a flag-preserving one keeps it
(spec/15_datapath_control.md R32, R33). -/
def flagAfter (mode : FlagMode) (z : Bool) (result : Word) : Bool :=
  match mode with
  | .updatesFlag => zeroFlag result
  | .preservesFlag => z

/-- One ALU evaluation: its result and the state with Z as the flag mode says
(spec/15_datapath_control.md R32). -/
def State.alu (s : State) (l r : Word) (tl tr : Transform) (op : AluOp) (mode : FlagMode) :
    Except Fault (Word × State) :=
  match aluResult s.params.modConvention l r tl tr op with
  | .error f => .error f
  | .ok v => .ok (v, { s with z := flagAfter mode s.z v })

/-- The value Z takes where the spec leaves it unspecified (spec/10_state.md R16): by the parameter
`Z_NONARITH`, a free value, the old Z, or whether the value moved is zero (log 6). -/
def State.nonArithZ (s : State) (op : Opcode) (v : Word) : Bool :=
  match s.params.zNonArith with
  | .anyValue => Config.freeZ op s.freeDraws s.z v
  | .preserve => s.z
  | .fromValue => zeroFlag v

/-- `Z <- unspecified` (spec/00_scope.md section 6, spec/10_state.md R16), after an instruction that
moves the value `v`; the counter makes each draw a fresh one. -/
def State.drawZ (s : State) (op : Opcode) (v : Word) : State :=
  { s with z := s.nonArithZ op v, freeDraws := s.freeDraws + 1 }

end Sys2Proof.Machine
end

