-- ==== Sys2Proof/Machine/Ops.lean ====
section
/-! DEFINITION. The named operations every instruction is written over: registers, the program
counter, the memory with its bounds check, the counters, the status, the fetch, the decode, and
raising a fatal condition (spec/00_scope.md section 6, the pseudocode primitives). -/

namespace Sys2Proof.Machine

/-- What a step or a meaning answers. -/
abbrev Result := Host.Outcome State Fault Refusal

/-- `raise <Fault>(info)` (spec/60_exceptions.md R170, R174): the one way a fatal condition is taken.
Nothing is saved and control goes nowhere: the run ends in `Faulted(reason)`, a state with no
successor and no promised contents (R179), so the outcome is the fault itself (log 9). -/
def raise (f : Fault) : Result := .fault f

/-- The run status after a step (spec/10_state.md R22): of a fatal condition, `Faulted(reason)`. -/
def statusAfter : Result → Option RunStatus
  | .next s => some s.status
  | .fault f => some (.faulted f)
  | .refused _ => none

/-! ## Registers and the program counter -/

/-- Read general register x[i], i in 0..3 (spec/10_state.md R11). -/
def State.reg (s : State) (i : Fin 4) : Word := s.x[i.val]

/-- Write general register x[i], i in 0..3. -/
def State.setReg (s : State) (i : Fin 4) (v : Word) : State := { s with x := s.x.set i.val v }

/-- The program counter, `pc = x[4]` (spec/10_state.md R12). -/
def State.pc (s : State) : Word := s.x[4]

/-- `pc <- target`. -/
def State.setPc (s : State) (v : Word) : State := { s with x := s.x.set 4 v }

/-! ## Counters and status -/

/-- `tick(k)` (spec/10_state.md R21). -/
def State.tick (s : State) (k : Nat) : State := { s with tickCount := s.tickCount + k }

/-- The execute ticks of an opcode in this run (spec/15_datapath_control.md R38, R39). -/
def State.execTicks (s : State) (op : Opcode) : Nat := s.params.execTicks.of op

/-- Retirement: `instr_count <- instr_count + 1` (spec/15_datapath_control.md R40). -/
def State.retire (s : State) : State := { s with instrCount := s.instrCount + 1 }

/-- `halt`: the run ends normally (spec/42_control_flow.md R133). -/
def State.halt (s : State) : State := { s with status := .halted }

/-! ## The memory -/

/-- What an unlisted cell holds: the zero fill, `Data(0)` (spec/10_state.md R24). -/
def zeroCell : Cell := .data 0

/-- The canonical form of a memory: addresses strictly rising, no entry equal to what an unlisted cell
holds. -/
abbrev Memory.wf (m : Memory) : Prop :=
  m.Pairwise (fun p q => p.1 < q.1) ∧ ∀ p ∈ m, p.2 ≠ zeroCell

/-- The cell at an address. -/
def Memory.read : Memory → Nat → Cell
  | [], _ => zeroCell
  | (a, c) :: m, b => if a = b then c else Memory.read m b

/-- The memory with the entry of an address taken out, so that it reads as the zero fill. -/
def Memory.clear : Memory → Nat → Memory
  | [], _ => []
  | (a, c) :: m, b => if a = b then Memory.clear m b else (a, c) :: Memory.clear m b

/-- The memory with an entry put in at its place in the order. -/
def Memory.insert : Memory → Nat → Cell → Memory
  | [], b, d => [(b, d)]
  | (a, c) :: m, b, d =>
    if b < a then (b, d) :: (a, c) :: m
    else if b = a then (b, d) :: m
    else (a, c) :: Memory.insert m b d

/-- The memory with one cell replaced, in canonical form. -/
def Memory.write (m : Memory) (a : Nat) (c : Cell) : Memory :=
  if c = zeroCell then m.clear a else m.insert a c

/-- The bounds check of every access (spec/20_memory.md R62): in range exactly when
0 <= a < MEM_SIZE; negative addresses are out of range. -/
def State.cellAddress (s : State) (a : Int) : Except Fault Nat :=
  if 0 ≤ a ∧ a < s.params.memSize then .ok a.toNat else .error (.memoryOutOfBounds a)

/-- `MemRead(addr, 1)` (spec/00_scope.md section 6). -/
def State.memRead (s : State) (a : Int) : Except Fault Cell :=
  match s.cellAddress a with
  | .error f => .error f
  | .ok k => .ok (s.mem.read k)

/-- `MemWrite(addr, 1, v)`: the whole cell becomes `Data(v)`, whatever it held (spec/20_memory.md
R66). -/
def State.memWrite (s : State) (a : Int) (v : Word) : Except Fault State :=
  match s.cellAddress a with
  | .error f => .error f
  | .ok k => .ok { s with mem := s.mem.write k (.data v) }

/-- The data read of LD: a cell that holds an instruction is `NotADataCell` (spec/20_memory.md R64). -/
def State.loadData (s : State) (a : Int) : Except Fault Word :=
  match s.memRead a with
  | .error f => .error f
  | .ok (.instr _) => .error (.notADataCell a)
  | .ok (.data v) => .ok v

/-! ## The fetch and the decode (spec/15_datapath_control.md R35 to R37, R44) -/

/-- The step ceiling, tested before the fetch (spec/15_datapath_control.md R42, R44 line 1). -/
def State.ceilingReached (s : State) : Bool := s.params.stepLimit ≤ s.instrCount

/-- The fetch (R44 lines 2 to 8): read the cell at pc (one tick), increment pc by a flag-preserving
ALU pass (one more), and latch the instruction in IR; a data cell is `NotAnInstruction` of the address
fetched from. Answers what was latched and the state the execute phase begins in. -/
def State.fetch (s : State) : Except Fault (Payload × State) :=
  match s.memRead s.pc.toInt with
  | .error f => .error f
  | .ok c =>
    match (s.tick 1).alu s.pc 0 .inc .pass .addFamily .preservesFlag with
    | .error f => .error f
    | .ok (next, t) =>
      match c with
      | .data _ => .error (.notAnInstruction s.pc.toInt)
      | .instr p => .ok (p, { (t.setPc next).tick 1 with ir := some p })

/-- The fatal condition a rejection of the decoder raises (spec/60_exceptions.md R171, F3 and F4). -/
def faultOfDecode : DecodeError → Fault
  | .unknownOpcode op => .unknownOpcode op
  | .malformedInstruction op count => .malformedInstruction op count

/-- The decode of what was latched (R44 lines 9 and 10); the register operands, line 11, are checked
by the instruction's meaning before anything else (Machine/Operands.lean). -/
def decodeLatched (p : Payload) : Except Fault Instr :=
  match decodePayload p with
  | .ok i => .ok i
  | .error e => .error (faultOfDecode e)

/-- After the execute phase: an instruction that completed is retired, one that raised a fatal
condition is not counted (spec/15_datapath_control.md R40, R44 line 13). -/
def retireResult : Result → Result
  | .next s => .next s.retire
  | .fault f => .fault f
  | .refused r => .refused r

end Sys2Proof.Machine
end

