-- ==== Sys2Proof/Machine/Operands.lean ====
section
/-! DEFINITION. The operand forms (spec/30_encoding.md R82, R83): a register index with its check, an
absolute address, an absolute target; and the endings the instructions of one family share. -/

namespace Sys2Proof.Machine

/-- `regidx(i)` (spec/10_state.md R13): a legal register operand yields its register, any other
raises `RegisterIndexOutOfBounds(i)`. -/
def regidx (w : Word) : Except Fault (Fin 4) :=
  if h : IsRegisterIndex w then .ok ⟨w.toInt.toNat, by omega⟩
  else .error (.registerIndexOutOfBounds w.toInt)

/-- Check one register operand, then go on with its register. The operands of an instruction are
checked in operand order, before any effect (spec/15_datapath_control.md R44 line 11,
spec/60_exceptions.md R173). -/
def withRegister (w : Word) (k : Fin 4 → Result) : Result :=
  match regidx w with
  | .error f => raise f
  | .ok i => k i

/-- The address an `addr` operand names: the integer as it stands (spec/41_data_movement.md R123). -/
def effectiveAddress (addr : Word) : Int := addr.toInt

/-- The ending of ADD, SUB, MOD, INC and DEC (spec/40_arithmetic.md R100): one flag-updating ALU
evaluation, latched into the destination register. -/
def State.aluToReg (s : State) (op : Opcode) (l r : Word) (tl tr : Transform) (aop : AluOp)
    (d : Fin 4) : Result :=
  match s.alu l r tl tr aop .updatesFlag with
  | .error f => raise f
  | .ok (v, t) => .next ((t.setReg d v).tick (s.execTicks op))

/-- The ending of LD and MV: the value moved goes to the destination register and Z is unspecified
(spec/41_data_movement.md R120, R122). -/
def State.moveToReg (s : State) (op : Opcode) (v : Word) (d : Fin 4) : State :=
  ((s.setReg d v).drawZ op v).tick (s.execTicks op)

/-- A transfer of control: `pc <- target`, the operand as it stands, unchecked; Z is unspecified
(spec/42_control_flow.md R134, R135; spec/10_state.md R16). -/
def State.jumpTo (s : State) (op : Opcode) (target : Word) : State :=
  (s.setPc target).drawZ op target

/-- The frame of BE and BNE: one tick to evaluate the flag, and when the branch is taken the transfer
and a further tick (spec/15_datapath_control.md R39, spec/42_control_flow.md R130, R131). -/
def State.branch (s : State) (op : Opcode) (taken : Bool) (target : Word) : State :=
  if taken then ((s.tick (s.execTicks op)).jumpTo op target).tick 1
  else s.tick (s.execTicks op)

end Sys2Proof.Machine
end

