-- ==== Sys2Proof/Machine/Arithmetic.lean ====
section
/-! DEFINITION. ADD, SUB, MOD, INC and DEC (spec/40_arithmetic.md). Every register operand is checked
first, in operand order; sources are read before the destination is written (R100). -/

namespace Sys2Proof.Machine

/-- ADD r1, r2, rres (spec/40_arithmetic.md R101). -/
def execAdd (r1 r2 rres : Word) (s : State) : Result :=
  withRegister r1 fun a => withRegister r2 fun b => withRegister rres fun d =>
    s.aluToReg .add (s.reg a) (s.reg b) .pass .pass .addFamily d

/-- SUB r1, r2, rres (R102): the right input goes through the negating transform. -/
def execSub (r1 r2 rres : Word) (s : State) : Result :=
  withRegister r1 fun a => withRegister r2 fun b => withRegister rres fun d =>
    s.aluToReg .sub (s.reg a) (s.reg b) .pass .neg .addFamily d

/-- MOD r1, r2, rres (R103, R107): a zero divisor raises `DivisionByZero`, with nothing written. -/
def execMod (r1 r2 rres : Word) (s : State) : Result :=
  withRegister r1 fun a => withRegister r2 fun b => withRegister rres fun d =>
    s.aluToReg .mod (s.reg a) (s.reg b) .pass .pass .modulo d

/-- INC r, rres (R104): the left input goes through the incrementing transform. -/
def execInc (r rres : Word) (s : State) : Result :=
  withRegister r fun a => withRegister rres fun d =>
    s.aluToReg .inc (s.reg a) 0 .inc .pass .addFamily d

/-- DEC r, rres (R105): the constant 1 goes through the negating transform on the right input. -/
def execDec (r rres : Word) (s : State) : Result :=
  withRegister r fun a => withRegister rres fun d =>
    s.aluToReg .dec (s.reg a) 1 .pass .neg .addFamily d

end Sys2Proof.Machine
end

