-- ==== Sys2Proof/Machine/Control.lean ====
section
/-! DEFINITION. BE, BNE, JMP and HLT (spec/42_control_flow.md). When one of them executes, pc already
holds the address of the next cell (spec/15_datapath_control.md R36). -/

namespace Sys2Proof.Machine

/-- BE target (spec/42_control_flow.md R130): taken when Z = 1. -/
def execBe (target : Word) (s : State) : Result := .next (s.branch .be s.z target)

/-- BNE target (R131): taken when Z = 0. -/
def execBne (target : Word) (s : State) : Result := .next (s.branch .bne (!s.z) target)

/-- JMP target (R132). -/
def execJmp (target : Word) (s : State) : Result :=
  .next ((s.jumpTo .jmp target).tick (s.execTicks .jmp))

/-- HLT (R133): normal completion; it is then counted like any other instruction (R40). -/
def execHlt (s : State) : Result := .next (s.tick (s.execTicks .hlt)).halt

end Sys2Proof.Machine
end

