-- ==== Sys2Proof/Machine/Movement.lean ====
section
/-! DEFINITION. LD, ST and MV (spec/41_data_movement.md). -/

namespace Sys2Proof.Machine

/-- LD addr, rres (spec/41_data_movement.md R120): a fatal access leaves x[rres] unwritten. -/
def execLd (addr rres : Word) (s : State) : Result :=
  withRegister rres fun d =>
    match s.loadData (effectiveAddress addr) with
    | .error f => raise f
    | .ok v => .next (s.moveToReg .ld v d)

/-- ST r, addr (R121): the cell becomes `Data(x[r])`, whatever it held; Z is unspecified. -/
def execSt (r addr : Word) (s : State) : Result :=
  withRegister r fun a =>
    match s.memWrite (effectiveAddress addr) (s.reg a) with
    | .error f => raise f
    | .ok t => .next ((t.drawZ .st (s.reg a)).tick (s.execTicks .st))

/-- MV r1, rres (R122). -/
def execMv (r1 rres : Word) (s : State) : Result :=
  withRegister r1 fun a => withRegister rres fun d => .next (s.moveToReg .mv (s.reg a) d)

end Sys2Proof.Machine
end

