-- ==== Sys2Proof/Machine/Dispatch.lean ====
section
/-! DEFINITION. One arm per instruction (spec/30_encoding.md R81, R95). -/

namespace Sys2Proof.Machine

def exec (i : Instr) (s : State) : Host.Outcome State Fault Refusal :=
  match i with
  | .add r1 r2 rres => Sys2Proof.Machine.execAdd r1 r2 rres s
  | .sub r1 r2 rres => Sys2Proof.Machine.execSub r1 r2 rres s
  | .mod r1 r2 rres => Sys2Proof.Machine.execMod r1 r2 rres s
  | .inc r rres => Sys2Proof.Machine.execInc r rres s
  | .dec r rres => Sys2Proof.Machine.execDec r rres s
  | .ld addr rres => Sys2Proof.Machine.execLd addr rres s
  | .st r addr => Sys2Proof.Machine.execSt r addr s
  | .mv r1 rres => Sys2Proof.Machine.execMv r1 rres s
  | .be target => Sys2Proof.Machine.execBe target s
  | .bne target => Sys2Proof.Machine.execBne target s
  | .jmp target => Sys2Proof.Machine.execJmp target s
  | .hlt => Sys2Proof.Machine.execHlt s

end Sys2Proof.Machine
end

