-- ==== Sys2Proof/Machine/Step.lean ====
section
/-! DEFINITION. One instruction cycle of the control unit (spec/15_datapath_control.md R34, R44), over
the operations of Machine/Ops.lean; and a state with a given instruction where the next fetch reads. -/

namespace Sys2Proof.Machine

/-- `cycle()` from a running state (spec/15_datapath_control.md R44): the ceiling, the fetch, the
decode, the instruction's own rule, the retirement. -/
def cycle (s : State) : Host.Outcome State Fault Refusal :=
  if s.ceilingReached then raise (.stepLimitExceeded s.instrCount)
  else
    match s.fetch with
    | .error f => raise f
    | .ok (p, t) =>
      match decodeLatched p with
      | .error f => raise f
      | .ok i => retireResult (exec i t)

/-- One step. No step is taken from Halted or Faulted (spec/10_state.md R22). -/
def step (s : State) : Host.Outcome State Fault Refusal :=
  match s.status with
  | .running => cycle s
  | .halted => .refused .runEnded
  | .faulted _ => .refused .runEnded

/-- `s` with the W32 word of an instruction in the cell the next fetch reads (pc, where pc is an
address); nothing else changes. It stands for the load of a program (log 23). -/
def State.withFetchWord (s : State) (nbits w : Nat) : State :=
  { s with
    mem := s.mem.write s.pc.toInt.toNat (.instr (.word (BitVec.ofNat 32 (w % 2 ^ nbits)))) }

end Sys2Proof.Machine
end

