-- ==== Sys2Proof/Machine/Launch.lean ====
section
/-! DEFINITION. The loader and the launch (spec/70_reset_and_hazards.md R190, R191; load-time refusals
of spec/60_exceptions.md R172): the host's moves before a run. The control unit takes no step here. -/

namespace Sys2Proof.Machine

/-- An operand of an image before it is loaded: an integer, or a symbolic name that survived linking
(spec/30_encoding.md R80, spec/60_exceptions.md R172). -/
inductive ImageOperand where
  | int (v : Int)
  | symbol (name : String)
deriving DecidableEq, Repr

/-- A cell of a program image before it is loaded (spec/30_encoding.md R89): an integer, an
instruction with its operands, or a W32 word (R90). -/
inductive ImageCell where
  | data (v : Int)
  | instr (op : OpcodeField) (operands : List ImageOperand)
  | word (w : BitVec 32)
deriving DecidableEq, Repr

/-- Why the loader refuses an image; there is then no run (spec/60_exceptions.md R172). -/
inductive LoadRefusal where
  /-- Image length L >= MEM_SIZE (conflict C2 of spec/90_conflicts.md). -/
  | imageTooLarge (length memSize : Nat)
  /-- A serialised opcode name that is none of the twelve. -/
  | unknownOpcodeName (name : String)
  /-- A data-cell integer or an operand outside int32 (D21). -/
  | integerOutOfRange (v : Int)
  /-- An operand that is not an integer. -/
  | notAnInteger (operand : String)
  /-- MEM_SIZE outside the bounds of spec/00_scope.md R5 (D22, D19). DESIGN CHOICE, log 12: the spec
  gives the bounds and no name for breaking them. -/
  | memSizeOutOfRange (memSize : Nat)
  /-- A serialised element that is neither an integer nor an object with an opcode name and an operand
  list. DESIGN CHOICE, log 13. -/
  | notAnImageElement
deriving DecidableEq, Repr

/-- The int32 of an image integer (spec/30_encoding.md R89). -/
def loadInt (v : Int) : Except LoadRefusal Word :=
  if IsInt32 v then .ok (wrap32 v) else .error (.integerOutOfRange v)

/-- The operands of a record, each an int32; the first one refused is the one named (log 11). -/
def loadOperands : List ImageOperand → Except LoadRefusal (List Word)
  | [] => .ok []
  | .symbol name :: _ => .error (.notAnInteger name)
  | .int v :: rest =>
    match loadInt v with
    | .error e => .error e
    | .ok w =>
      match loadOperands rest with
      | .error e => .error e
      | .ok ws => .ok (w :: ws)

/-- One cell of an image; the operand count is not checked (spec/70_reset_and_hazards.md R191). -/
def loadCell : ImageCell → Except LoadRefusal Cell
  | .data v =>
    match loadInt v with
    | .error e => .error e
    | .ok w => .ok (.data w)
  | .instr op operands =>
    match loadOperands operands with
    | .error e => .error e
    | .ok ws => .ok (.instr (.record ⟨op, ws⟩))
  | .word w => .ok (.instr (.word w))

/-- The cells of an image, in address order; the first cell that is refused is the one named
(log 11). -/
def loadCells : List ImageCell → Except LoadRefusal (List Cell)
  | [] => .ok []
  | c :: rest =>
    match loadCell c with
    | .error e => .error e
    | .ok d =>
      match loadCells rest with
      | .error e => .error e
      | .ok ds => .ok (d :: ds)

/-- The memory that holds a list of cells from an address upwards, zero-filled elsewhere
(spec/70_reset_and_hazards.md R190 step 3), in canonical form. -/
def Memory.ofCells : Nat → List Cell → Memory
  | _, [] => []
  | k, c :: cs => if c = zeroCell then Memory.ofCells (k + 1) cs else (k, c) :: Memory.ofCells (k + 1) cs

/-- Whether a cell uses the W32 packing. -/
def Cell.isPacked : Cell → Bool
  | .instr (.word _) => true
  | .instr (.record _) => false
  | .data _ => false

/-- The launch state of an image of cells (spec/10_state.md R24, spec/70_reset_and_hazards.md R190
steps 3 and 4). `regs` and `z` are the launch values the spec leaves unspecified (REG_RESET, Z_RESET
of spec/00_scope.md R7). -/
def launchState (cells : List Cell) (p : Params) (regs : Vector Word 4) (z : Bool) : State :=
  { x := #v[regs[0], regs[1], regs[2], regs[3], 0]
    z := z
    mem := Memory.ofCells 0 cells
    ir := none
    instrCount := 0
    tickCount := 0
    status := .running
    params := p
    freeDraws := 0 }

/-- The launch of an image (spec/70_reset_and_hazards.md R190, R191): the loader's checks, then the
launch state. DESIGN CHOICE, log 11: the spec orders the refusals in no way; here the size is tested
first, and then the cells in address order. -/
def launch (image : List ImageCell) (p : Params) (regs : Vector Word 4) (z : Bool) :
    Except LoadRefusal State :=
  if p.memSize ≤ image.length then .error (.imageTooLarge image.length p.memSize)
  else if Config.maxMemSize < p.memSize then .error (.memSizeOutOfRange p.memSize)
  else
    match loadCells image with
    | .error e => .error e
    | .ok cells =>
      if cells.any Cell.isPacked && decide (Config.maxPackedMemSize < p.memSize) then
        .error (.memSizeOutOfRange p.memSize)
      else .ok (launchState cells p regs z)

end Sys2Proof.Machine
end

