-- ==== Sys2Proof/Machine/Codegen.lean ====
section
/-! DEFINITION. The code generator's contract with the engine (spec/50_program_image_and_codegen.md):
the syntax tree, the symbol and label tables, the lowering and the linking, up to the program image
that Machine/Launch.lean loads. It is software, not part of the block (spec/00_scope.md R3 (b)):
nothing of the machine rests on this file. What the source leaves open is refused or named in log
22. -/

namespace Sys2Proof.Machine

/-- The arithmetic operators of the source language (spec/50_program_image_and_codegen.md R142). -/
inductive ArithOperator where
  | plus | minus | percent
deriving DecidableEq, Repr

/-- The relational operators (R142). -/
inductive RelOperator where
  | equal | notEqual
deriving DecidableEq, Repr

/-- Expressions (R142). -/
inductive Expression where
  | literal (v : Int)
  | variableRef (name : String)
  | binary (op : ArithOperator) (left right : Expression)
deriving DecidableEq, Repr

/-- A condition: one relational comparison (R142). -/
structure Condition where
  left : Expression
  op : RelOperator
  right : Expression
deriving DecidableEq, Repr

/-- Statements (R142): assignment, sequencing (a compound is `empty` or `seq`), if, while. -/
inductive Statement where
  | assign (name : String) (value : Expression)
  | empty
  | seq (first rest : Statement)
  | ifThen (c : Condition) (body : Statement)
  | whileDo (c : Condition) (body : Statement)
deriving DecidableEq, Repr

/-- An operand before linking: a register, a variable's name, or the index of a label-table entry
(R144). -/
inductive SymOperand where
  | register (i : Nat)
  | var (name : String)
  | label (k : Nat)
deriving DecidableEq, Repr

/-- An emitted instruction before linking. -/
structure SymInstr where
  op : Opcode
  operands : List SymOperand
deriving DecidableEq, Repr

/-- Why generation fails (R153). -/
inductive GenError where
  /-- A reference to an undeclared variable. -/
  | undeclaredVariable (name : String)
  /-- A label unresolved at link time, a generator defect (R144). -/
  | unresolvedLabel (k : Nat)
  /-- An operand that is itself a binary expression: the source gives no code for it (R155, U20 of
  spec/93_implementation_defined.md), log 22; or, DESIGN CHOICE of log 22, such a side of a condition
  (R146). -/
  | nestedExpression
deriving DecidableEq, Repr

/-- The generator's state (R143 to R145); the program-counter counter is the length of `code`. -/
structure GenState where
  /-- Names in declaration order, each with its initial value. -/
  symbols : List (String × Int) := []
  /-- The emitted instruction sequence, append-only. -/
  code : List SymInstr := []
  /-- The label table; `none` is the unresolved sentinel. -/
  labels : List (Option Nat) := []
deriving DecidableEq, Repr

/-- Whether a name is declared. -/
def GenState.declared (g : GenState) (name : String) : Bool := (g.symbols.lookup name).isSome

/-- Declare a name with its initial value; a name is inserted at most once (R143). -/
def GenState.declare (g : GenState) (name : String) (initial : Int) : GenState :=
  if g.declared name then g else { g with symbols := g.symbols ++ [(name, initial)] }

/-- The key of an integer literal's synthetic variable: its decimal text (R143). -/
def literalKey (v : Int) : String := toString v

/-- Append one instruction. -/
def GenState.emit (g : GenState) (op : Opcode) (operands : List SymOperand) : GenState :=
  { g with code := g.code ++ [⟨op, operands⟩] }

/-- Append a label entry. -/
def GenState.addLabel (g : GenState) (entry : Option Nat) : GenState :=
  { g with labels := g.labels ++ [entry] }

/-- Resolve a label entry to the current instruction count. -/
def GenState.resolve (g : GenState) (k : Nat) : GenState :=
  { g with labels := g.labels.set k (some g.code.length) }

/-- Lower a literal or a variable reference into a register (R147). -/
def lowerAtom (g : GenState) (dest : Nat) : Expression → Except GenError GenState
  | .literal v =>
    .ok ((g.declare (literalKey v) v).emit .ld [.var (literalKey v), .register dest])
  | .variableRef name =>
    if g.declared name then .ok (g.emit .ld [.var name, .register dest])
    else .error (.undeclaredVariable name)
  | .binary _ _ _ => .error .nestedExpression

/-- The opcode of an arithmetic operator (R147). -/
def arithOpcode : ArithOperator → Opcode
  | .plus => .add
  | .minus => .sub
  | .percent => .mod

/-- Lower two operands into registers 1 and 2 (R147). -/
def lowerPair (g : GenState) (l r : Expression) : Except GenError GenState :=
  match lowerAtom g 1 l with
  | .error e => .error e
  | .ok g1 => lowerAtom g1 2 r

/-- Lower an expression into its destination register (R147, R155). -/
def lowerExpression (g : GenState) (dest : Nat) (e : Expression) : Except GenError GenState :=
  match e with
  | .binary op l r =>
    match lowerPair g l r with
    | .error e => .error e
    | .ok g1 => .ok (g1.emit (arithOpcode op) [.register 1, .register 2, .register dest])
  | .literal v => lowerAtom g dest (.literal v)
  | .variableRef name => lowerAtom g dest (.variableRef name)

/-- The branch opcode that skips the body when the condition is false (R146). -/
def skipOpcode : RelOperator → Opcode
  | .equal => .bne
  | .notEqual => .be

/-- Lower a condition: both sides, then `SUB 1, 2, 0` (R146). DESIGN CHOICE, log 22: a side that is itself
a binary expression, on the left or on the right, is refused as a nested expression. R146 with R147 can be
read to give code for such a left side (its destination is register 1); R155 gives code only where the
operands are literals or variables, and the model takes a side of a condition for such an operand. -/
def lowerCondition (g : GenState) (c : Condition) : Except GenError GenState :=
  match lowerPair g c.left c.right with
  | .error e => .error e
  | .ok g1 => .ok (g1.emit .sub [.register 1, .register 2, .register 0])

/-- Lower the value into register 0 and store it (R148). -/
def storeAssignment (g : GenState) (name : String) (value : Expression) :
    Except GenError GenState :=
  match lowerExpression g 0 value with
  | .error e => .error e
  | .ok g1 => .ok (g1.emit .st [.register 0, .var name])

/-- Lower an assignment (R148): a new variable's literal is folded into its initial value; any other
new variable is declared with 0 first. -/
def lowerAssign (g : GenState) (name : String) (value : Expression) : Except GenError GenState :=
  if g.declared name then storeAssignment g name value
  else
    match value with
    | .literal v => .ok (g.declare name v)
    | .variableRef other => storeAssignment (g.declare name 0) name (.variableRef other)
    | .binary op l r => storeAssignment (g.declare name 0) name (.binary op l r)

/-- Lower a statement (R148 to R150). -/
def lowerStatement : Statement → GenState → Except GenError GenState
  | .assign name value, g => lowerAssign g name value
  | .empty, g => .ok g
  | .seq first rest, g =>
    match lowerStatement first g with
    | .error e => .error e
    | .ok g1 => lowerStatement rest g1
  | .ifThen c body, g =>
    match lowerCondition g c with
    | .error e => .error e
    | .ok g1 =>
      match lowerStatement body
          ((g1.addLabel none).emit (skipOpcode c.op) [.label g1.labels.length]) with
      | .error e => .error e
      | .ok g2 => .ok (g2.resolve g1.labels.length)
  | .whileDo c body, g =>
    match lowerCondition g c with
    | .error e => .error e
    | .ok g1 =>
      match lowerStatement body
          (((g1.addLabel none).emit (skipOpcode c.op) [.label g1.labels.length]).addLabel
            (some g.code.length)) with
      | .error e => .error e
      | .ok g2 =>
        .ok ((g2.emit .jmp [.label (g1.labels.length + 1)]).resolve g1.labels.length)

/-- The position of a name in the symbol table. -/
def symbolIndex (symbols : List (String × Int)) (name : String) : Option Nat :=
  symbols.findIdx? fun entry => entry.1 == name

/-- Link one operand (R151): `n` is the instruction count after the HLT is appended. -/
def linkOperand (g : GenState) (n : Nat) : SymOperand → Except GenError ImageOperand
  | .register i => .ok (.int i)
  | .var name =>
    match symbolIndex g.symbols name with
    | some k => .ok (.int (n + k : Nat))
    | none => .error (.undeclaredVariable name)
  | .label k =>
    match g.labels[k]? with
    | some (some a) => .ok (.int a)
    | some none => .error (.unresolvedLabel k)
    | none => .error (.unresolvedLabel k)

/-- Link an operand list. -/
def linkOperands (g : GenState) (n : Nat) : List SymOperand → Except GenError (List ImageOperand)
  | [] => .ok []
  | o :: rest =>
    match linkOperand g n o with
    | .error e => .error e
    | .ok v =>
      match linkOperands g n rest with
      | .error e => .error e
      | .ok vs => .ok (v :: vs)

/-- Link an instruction sequence. -/
def linkCode (g : GenState) (n : Nat) : List SymInstr → Except GenError (List ImageCell)
  | [] => .ok []
  | i :: rest =>
    match linkOperands g n i.operands with
    | .error e => .error e
    | .ok vs =>
      match linkCode g n rest with
      | .error e => .error e
      | .ok cs => .ok (.instr (.known i.op) vs :: cs)

/-- Linking (R151): append HLT, resolve every operand, append the variable cells in declaration
order. -/
def link (g : GenState) : Except GenError (List ImageCell) :=
  match linkCode g (g.code.length + 1) (g.code ++ [⟨.hlt, []⟩]) with
  | .error e => .error e
  | .ok cells => .ok (cells ++ g.symbols.map fun entry => ImageCell.data entry.2)

/-- `generate(ast) -> ProgramImage` (R145). -/
def generate (program : Statement) : Except GenError (List ImageCell) :=
  match lowerStatement program {} with
  | .error e => .error e
  | .ok g => link g

end Sys2Proof.Machine
end

