-- ==== Sys2Proof/Machine/Micro.lean ====
section
/-! DEFINITION. The datapath's microsteps (spec/15_datapath_control.md R30, R31, R43) and the reference
micro-sequences (R45, informative): two buses, the bus-select multiplexer, the ALU, one memory access
and one latch, each row with the ticks it costs: one for the fetch and branch rows (R35, R36, R39),
`EXEC_TICKS` for the row of each other opcode (R38, R45). The instructions' normative meanings are their own
rules (Machine/Arithmetic.lean, Movement.lean, Control.lean); this file is the engine below them.
What R45 leaves unsaid of the wiring is DESIGN CHOICE, log 21. -/

namespace Sys2Proof.Machine

/-- What drives a bus: a register of the file, the constant 1 of DEC's row, or nothing (an undriven
bus feeds 0, R45). -/
inductive BusSource where
  | reg (i : Fin 5)
  | one
  | undriven
deriving DecidableEq, Repr

/-- The bus-select multiplexer: the left bus, or the literal of an operand field of the current
instruction, by its position in the operand list (R31). -/
inductive MuxSelect where
  | bus
  | literal (field : Nat)
deriving DecidableEq, Repr

/-- What a microstep does with the memory. -/
inductive MemAccess where
  | none | read | write
deriving DecidableEq, Repr

/-- What a microstep does with Z: a flag mode of the ALU, the open point `?` of R45 (with the opcode
it stands under), or nothing. -/
inductive MicroFlag where
  | mode (m : FlagMode)
  | unspecified (op : Opcode)
  | untouched
deriving DecidableEq, Repr

/-- Where the result of a microstep is latched. -/
inductive Latch where
  | none
  | reg (i : Fin 5)
  | ir
  | halted
deriving DecidableEq, Repr

/-- One microstep, a row of the table of R45. -/
structure MicroStep where
  left : BusSource := .undriven
  right : BusSource := .undriven
  mux : MuxSelect := .bus
  tl : Transform := .pass
  tr : Transform := .pass
  op : Option AluOp := none
  flag : MicroFlag := .untouched
  mem : MemAccess := .none
  latch : Latch := .none
  /-- What the row costs: one tick (R35, R36, R39), or the opcode's `EXEC_TICKS` (R38, R45). -/
  ticks : Nat := 1
deriving DecidableEq, Repr

/-- The value on a bus. -/
def State.bus (s : State) : BusSource → Word
  | .reg i => s.x[i.val]
  | .one => 1
  | .undriven => 0

/-- The literal of an operand field of the current instruction, IR (R31, spec/10_state.md R18); 0 when
the latch has no such field. -/
def State.literal (s : State) (field : Nat) : Word :=
  match s.ir with
  | none => 0
  | some p =>
    match decodePayload p with
    | .ok i => i.operands.getD field 0
    | .error _ => 0

/-- The output of the bus-select multiplexer. -/
def State.muxOut (s : State) (m : MicroStep) : Word :=
  match m.mux with
  | .bus => s.bus m.left
  | .literal k => s.literal k

/-- What a microstep carries to its latch: a data word, or the instruction a fetch reads. -/
inductive Latched where
  | word (v : Word)
  | instr (p : Payload)
deriving DecidableEq, Repr

/-- The value a microstep computes and the memory it leaves: a memory access at the multiplexer's
output (a write takes the left bus), or an ALU evaluation. -/
def State.microValue (s : State) (m : MicroStep) : Except Fault (Latched × State) :=
  match m.mem with
  | .read =>
    match s.memRead (s.muxOut m).toInt with
    | .error f => .error f
    | .ok (.data v) =>
      if m.latch = .ir then .error (.notAnInstruction (s.muxOut m).toInt) else .ok (.word v, s)
    | .ok (.instr p) =>
      if m.latch = .ir then .ok (.instr p, s) else .error (.notADataCell (s.muxOut m).toInt)
  | .write =>
    match s.memWrite (s.muxOut m).toInt (s.bus m.left) with
    | .error f => .error f
    | .ok t => .ok (.word (s.bus m.left), t)
  | .none =>
    match m.op with
    | none => .ok (.word (s.muxOut m), s)
    | some op =>
      match aluResult s.params.modConvention (s.muxOut m) (s.bus m.right) m.tl m.tr op with
      | .error f => .error f
      | .ok v => .ok (.word v, s)

/-- Z after a microstep that computed `v`. -/
def State.microFlag (s : State) (m : MicroStep) (v : Word) : State :=
  match m.flag with
  | .mode mode => { s with z := flagAfter mode s.z v }
  | .unspecified op => s.drawZ op v
  | .untouched => s

/-- The latch at the end of a microstep. -/
def State.microLatch (s : State) (m : MicroStep) (v : Latched) : State :=
  match m.latch, v with
  | .reg i, .word w => { s with x := s.x.set i.val w }
  | .ir, .instr p => { s with ir := some p }
  | .halted, _ => s.halt
  | _, _ => s

/-- One microstep: buses, multiplexer, ALU or memory, flag, latch, the row's ticks. -/
def State.microStep (s : State) (m : MicroStep) : Except Fault State :=
  match s.microValue m with
  | .error f => .error f
  | .ok (.word v, t) => .ok (((t.microFlag m v).microLatch m (.word v)).tick m.ticks)
  | .ok (.instr p, t) => .ok ((t.microLatch m (.instr p)).tick m.ticks)

/-- A micro-sequence, in its fixed order (R43); a fatal condition ends it. -/
def State.microRun (s : State) : List MicroStep → Except Fault State
  | [] => .ok s
  | m :: ms =>
    match s.microStep m with
    | .error f => .error f
    | .ok t => t.microRun ms

/-- The rows "fetch 1" and "fetch 2" of R45. -/
def fetchSequence : List MicroStep :=
  [{ left := .reg 4, mem := .read, latch := .ir },
   { left := .reg 4, tl := .inc, op := some .addFamily, flag := .mode .preservesFlag,
     latch := .reg 4 }]

/-- The register a checked operand names, as a bus source. -/
def gprSource (i : Fin 4) : BusSource := .reg (i.castLE (by decide))

/-- The register a checked operand names, as a latch. -/
def gprLatch (i : Fin 4) : Latch := .reg (i.castLE (by decide))

/-- A row that latches a flag-updating ALU evaluation into a register: the rows of ADD, SUB, MOD, INC
and DEC in R45. -/
def aluRow (left right : BusSource) (tl tr : Transform) (aop : AluOp) (d : Fin 4) (ticks : Nat) :
    MicroStep :=
  { left := left, right := right, tl := tl, tr := tr, op := some aop,
    flag := .mode .updatesFlag, latch := gprLatch d, ticks := ticks }

/-- The row that loads pc with the literal target (BE and BNE step 2, JMP) in R45. -/
def targetRow (op : Opcode) (ticks : Nat) : MicroStep :=
  { mux := .literal 0, op := some .addFamily, flag := .unspecified op, latch := .reg 4,
    ticks := ticks }

/-- The execute-phase rows of R45 for an instruction whose register operands are checked, each with its
ticks (R38, R39); BE and BNE take their second row only when the flag says so. A register operand that
names no register has no rows: its check raises the condition before the execute phase. -/
def executeSequence (i : Instr) (s : State) : Except Fault (List MicroStep) :=
  match i with
  | .add r1 r2 rres => do
    let a ← regidx r1
    let b ← regidx r2
    let d ← regidx rres
    .ok [aluRow (gprSource a) (gprSource b) .pass .pass .addFamily d (s.execTicks .add)]
  | .sub r1 r2 rres => do
    let a ← regidx r1
    let b ← regidx r2
    let d ← regidx rres
    .ok [aluRow (gprSource a) (gprSource b) .pass .neg .addFamily d (s.execTicks .sub)]
  | .mod r1 r2 rres => do
    let a ← regidx r1
    let b ← regidx r2
    let d ← regidx rres
    .ok [aluRow (gprSource a) (gprSource b) .pass .pass .modulo d (s.execTicks .mod)]
  | .inc r rres => do
    let a ← regidx r
    let d ← regidx rres
    .ok [aluRow (gprSource a) .undriven .inc .pass .addFamily d (s.execTicks .inc)]
  | .dec r rres => do
    let a ← regidx r
    let d ← regidx rres
    .ok [aluRow (gprSource a) .one .pass .neg .addFamily d (s.execTicks .dec)]
  | .ld _ rres => do
    let d ← regidx rres
    .ok [{ mux := .literal 0, flag := .unspecified .ld, mem := .read, latch := gprLatch d,
           ticks := s.execTicks .ld }]
  | .st r _ => do
    let a ← regidx r
    .ok [{ left := gprSource a, mux := .literal 1, flag := .unspecified .st, mem := .write,
           ticks := s.execTicks .st }]
  | .mv r1 rres => do
    let a ← regidx r1
    let d ← regidx rres
    .ok [{ left := gprSource a, op := some .addFamily, flag := .unspecified .mv,
           latch := gprLatch d, ticks := s.execTicks .mv }]
  | .be _ => .ok (if s.z then [{}, targetRow .be 1] else [{}])
  | .bne _ => .ok (if s.z then [{}] else [{}, targetRow .bne 1])
  | .jmp _ => .ok [targetRow .jmp (s.execTicks .jmp)]
  | .hlt => .ok [{ latch := .halted, ticks := s.execTicks .hlt }]

/-- The execute phase run by the reference micro-sequences. -/
def microExec (i : Instr) (s : State) : Result :=
  match executeSequence i s with
  | .error f => raise f
  | .ok ms =>
    match s.microRun ms with
    | .error f => raise f
    | .ok t => .next t

end Sys2Proof.Machine
end

