-- ==== Sys2Proof/Machine/Run.lean ====
section
/-! DEFINITION. A run and what the host reads at its end (spec/15_datapath_control.md R46,
spec/70_reset_and_hazards.md R198). -/

namespace Sys2Proof.Machine

/-- What the host reads when a run has ended (spec/70_reset_and_hazards.md R198): of a halted run the
counters, the registers, Z and the memory; of a faulted one the reason only. -/
inductive Report where
  | halted (instrCount tickCount : Nat) (x : Vector Word 5) (z : Bool) (mem : Memory)
  | fatal (reason : Fault)
deriving DecidableEq, Repr

/-- The report of a state that is the end of a run; a running state is never one (R198). -/
def State.report (s : State) : Option Report :=
  match s.status with
  | .running => none
  | .halted => some (.halted s.instrCount s.tickCount s.x s.z s.mem)
  | .faulted r => some (.fatal r)

/-- The run (spec/15_datapath_control.md R44): the repetition of the cycle while the status is
Running, for at most `n` cycles; `none` when it has not ended by then. -/
def runCycles : Nat → State → Option Report
  | 0, s => s.report
  | n + 1, s =>
    match s.status with
    | .running =>
      match step s with
      | .next t => runCycles n t
      | .fault f => some (.fatal f)
      | .refused _ => none
    | .halted => s.report
    | .faulted _ => s.report

/-- As many cycles as the ceiling lets a run take, and the one that meets it
(spec/70_reset_and_hazards.md R200). -/
def State.cyclesLeft (s : State) : Nat := s.params.stepLimit - s.instrCount + 1

/-- The report of a run to halt or ceiling (spec/15_datapath_control.md R46). -/
def runToEnd (s : State) : Option Report := runCycles s.cyclesLeft s

end Sys2Proof.Machine
end

