-- ==== Sys2Proof/Machine/Serial.lean ====
section
/-! DEFINITION. The serialised (interchange) form of a program image (spec/30_encoding.md R88) as a
JSON value, its reader and its writer, and the listing notation (R93). The text of the file is glue
outside the block (spec/00_scope.md R3 (a)). -/

namespace Sys2Proof.Machine

/-- The value of a key of a serialised instruction object. -/
inductive JsonField where
  | str (s : String)
  | list (items : List ImageOperand)
deriving DecidableEq, Repr

/-- An element of a serialised image: a bare integer, or an object (spec/30_encoding.md R88). -/
inductive JsonElement where
  | int (v : Int)
  | object (fields : List (String × JsonField))
deriving DecidableEq, Repr

/-- `JSON_KEY_OPCODE` and `JSON_KEY_OPERANDS` (spec/00_scope.md R7, decision D20). -/
structure JsonKeys where
  opcode : String
  operands : String
deriving DecidableEq, Repr

/-- The spec's defaults of the two keys (spec/30_encoding.md R88). -/
def JsonKeys.defaults : JsonKeys := ⟨"opcode", "operands"⟩

/-- The lower-case serialised name of an opcode (spec/30_encoding.md R88). -/
def opcodeName : Opcode → String
  | .add => "add"
  | .sub => "sub"
  | .mod => "mod"
  | .inc => "inc"
  | .dec => "dec"
  | .ld => "ld"
  | .st => "st"
  | .mv => "mv"
  | .be => "be"
  | .bne => "bne"
  | .jmp => "jmp"
  | .hlt => "hlt"

/-- The opcodes with their serialised names. -/
def opcodeNames : List (String × Opcode) :=
  [Opcode.add, .sub, .mod, .inc, .dec, .ld, .st, .mv, .be, .bne, .jmp, .hlt].map
    fun op => (opcodeName op, op)

/-- Deserialising one element: an unknown opcode name is refused (spec/30_encoding.md R88). -/
def readElement (k : JsonKeys) : JsonElement → Except LoadRefusal ImageCell
  | .int v => .ok (.data v)
  | .object fields =>
    match fields.lookup k.opcode, fields.lookup k.operands with
    | some (.str name), some (.list operands) =>
      match opcodeNames.lookup name with
      | some op => .ok (.instr (.known op) operands)
      | none => .error (.unknownOpcodeName name)
    | _, _ => .error .notAnImageElement

/-- Deserialising an image, a JSON array in address order; the first element refused is the one named
(log 11). -/
def readImage (k : JsonKeys) : List JsonElement → Except LoadRefusal (List ImageCell)
  | [] => .ok []
  | e :: rest =>
    match readElement k e with
    | .error r => .error r
    | .ok c =>
      match readImage k rest with
      | .error r => .error r
      | .ok cs => .ok (c :: cs)

/-- Serialising one cell; a cell whose opcode is none of the twelve has no serialised form, and a
packed cell is written as the record it packs (spec/30_encoding.md R88, R90). -/
def writeCell (k : JsonKeys) : ImageCell → Option JsonElement
  | .data v => some (.int v)
  | .instr (.known op) operands =>
    some (.object [(k.opcode, .str (opcodeName op)), (k.operands, .list operands)])
  | .instr (.unknown _) _ => none
  | .word w =>
    match decodeWord w with
    | .ok i =>
      some (.object [(k.opcode, .str (opcodeName i.opcode)),
        (k.operands, .list (i.operands.map fun v => .int v.toInt))])
    | .error _ => none

/-- Serialising an image. -/
def writeImage (k : JsonKeys) : List ImageCell → Option (List JsonElement)
  | [] => some []
  | c :: rest =>
    match writeCell k c, writeImage k rest with
    | some e, some es => some (e :: es)
    | _, _ => none

/-- The launch of a serialised image: deserialise the whole image, then launch
(spec/70_reset_and_hazards.md R190). DESIGN CHOICE, log 11: the spec orders the refusals of R172 in no
way; here an unknown opcode name or a bad element anywhere in the image is reported before the size
test and before any integer out of range. -/
def launchSerialised (k : JsonKeys) (elements : List JsonElement) (p : Params)
    (regs : Vector Word 4) (z : Bool) : Except LoadRefusal State :=
  match readImage k elements with
  | .error r => .error r
  | .ok image => launch image p regs z

/-! ## The listing notation (spec/30_encoding.md R93) -/

/-- The upper-case mnemonic of an opcode. -/
def mnemonic : Opcode → String
  | .add => "ADD"
  | .sub => "SUB"
  | .mod => "MOD"
  | .inc => "INC"
  | .dec => "DEC"
  | .ld => "LD"
  | .st => "ST"
  | .mv => "MV"
  | .be => "BE"
  | .bne => "BNE"
  | .jmp => "JMP"
  | .hlt => "HLT"

/-- An instruction as a listing line: `HLT`, or the mnemonic followed by its operands in record order,
each a decimal integer (spec/30_encoding.md R93). -/
def listing (i : Instr) : String :=
  match i.operands with
  | [] => mnemonic i.opcode
  | ops => mnemonic i.opcode ++ " " ++ String.intercalate ", " (ops.map fun v => toString v.toInt)

/-- A cell as a listing line with its address (spec/30_encoding.md R93): `3: BE 9`, `7: .data 2`; a
cell the decoder rejects has no listing. -/
def listingLine (a : Nat) : Cell → Option String
  | .data v => some (toString a ++ ": .data " ++ toString v.toInt)
  | .instr p =>
    match decodePayload p with
    | .ok i => some (toString a ++ ": " ++ listing i)
    | .error _ => none

end Sys2Proof.Machine
end

