-- ==== Sys2Proof/Safety.lean ====
section
/-! DEFINITION. What counts as a safe state and a safe run, in the terms the claims use: the invariant
of the machine, who may write what, and what "equal but for" means. -/

namespace Sys2Proof.Machine

/-- The operand word that names general register i (spec/10_state.md R13). -/
def gprOperand (i : Fin 4) : Word := BitVec.ofNat 32 i.val

/-- The instructions that perform a flag-updating ALU evaluation (spec/10_state.md R15). -/
def definesFlag (i : Instr) : Bool :=
  match i.opcode with
  | .add | .sub | .mod | .inc | .dec => true
  | .ld | .st | .mv | .be | .bne | .jmp | .hlt => false

/-- The instructions that read Z (spec/10_state.md R15). -/
def readsFlag (i : Instr) : Bool :=
  match i.opcode with
  | .be | .bne => true
  | .add | .sub | .mod | .inc | .dec | .ld | .st | .mv | .jmp | .hlt => false

/-- The instructions that write pc (spec/10_state.md R12). -/
def transfersControl (i : Instr) : Bool :=
  match i.opcode with
  | .be | .bne | .jmp => true
  | .add | .sub | .mod | .inc | .dec | .ld | .st | .mv | .hlt => false

/-- The destination register operand, the last operand of the opcodes that have one
(spec/30_encoding.md R82). -/
def destination : Instr → Option Word
  | .add _ _ rres => some rres
  | .sub _ _ rres => some rres
  | .mod _ _ rres => some rres
  | .inc _ rres => some rres
  | .dec _ rres => some rres
  | .ld _ rres => some rres
  | .st _ _ => none
  | .mv _ rres => some rres
  | .be _ => none
  | .bne _ => none
  | .jmp _ => none
  | .hlt => none

/-- The cell an instruction stores to: the one ST writes (spec/20_memory.md R63). -/
def storeAddress : Instr → Option Int
  | .st _ addr => some (effectiveAddress addr)
  | .add _ _ _ => none
  | .sub _ _ _ => none
  | .mod _ _ _ => none
  | .inc _ _ => none
  | .dec _ _ => none
  | .ld _ _ => none
  | .mv _ _ => none
  | .be _ => none
  | .bne _ => none
  | .jmp _ => none
  | .hlt => none

/-- The invariant of the machine: the memory is in canonical form and lies inside MEM_SIZE
(spec/20_memory.md R60), a run has retired at most STEP_LIMIT instructions
(spec/15_datapath_control.md R42) and has paid at least two ticks for each (R41). -/
structure State.Inv (s : State) : Prop where
  memWf : s.mem.wf
  memInside : ∀ p ∈ s.mem, p.1 < s.params.memSize
  retiredWithinLimit : s.instrCount ≤ s.params.stepLimit
  twoTicksEach : 2 * s.instrCount ≤ s.tickCount

/-- The state with its tick count and the execute ticks of the run set aside: no behaviour but
`tick_count` itself may depend on them (spec/70_reset_and_hazards.md R197). -/
def State.forgetTiming (s : State) : State :=
  { s with tickCount := 0, params := { s.params with execTicks := Config.defaultExecTicks } }

/-- What the spec says of a Z it leaves unspecified after a value `v` is moved: nothing, unless
`Z_NONARITH` fixes one of the two concrete behaviours (spec/10_state.md R16). -/
def State.unspecifiedZ (s : State) (v : Word) (z : Bool) : Prop :=
  (s.params.zNonArith = .preserve → z = s.z) ∧
  (s.params.zNonArith = .fromValue → z = decide (v = 0))

/-- The state with its zero flag set aside. -/
def State.forgetFlag (s : State) : State := { s with z := false }

/-- A result with each next state changed by `f`. -/
def mapNext (f : State → State) : Result → Result
  | .next s => .next (f s)
  | .fault r => .fault r
  | .refused r => .refused r

/-- The state a fetch of `p` leaves: pc incremented, two ticks, the latch filled, the rest as it was
(spec/15_datapath_control.md R35, R36). -/
def State.fetched (s : State) (p : Payload) : State :=
  { s with
    x := s.x.set 4 (wrap32 (s.pc.toInt + 1))
    tickCount := s.tickCount + 2
    ir := some p }

/-- The conditions under which a cycle gets as far as the decode of `p`: the status is Running, the
ceiling is not reached, pc is a cell address, and its cell holds `p` (spec/15_datapath_control.md R44
lines 1 to 8). -/
structure State.Fetches (s : State) (p : Payload) : Prop where
  running : s.status = .running
  belowLimit : s.instrCount < s.params.stepLimit
  pcNonneg : 0 ≤ s.pc.toInt
  pcInside : s.pc.toInt < s.params.memSize
  cell : s.mem.read s.pc.toInt.toNat = .instr p

/-- The general registers, the memory, the latch, the retired count, the status and the parameters are
as they were: what a transfer of control and HLT leave alone. -/
structure State.SameButControl (s t : State) : Prop where
  regs : ∀ j, t.reg j = s.reg j
  mem : ∀ a, t.mem.read a = s.mem.read a
  ir : t.ir = s.ir
  instrCount : t.instrCount = s.instrCount
  params : t.params = s.params

/-- Whether a cell of an image is an instruction with a given opcode and integer operands. -/
def isInstr (op : Opcode) (operands : List Int) (c : ImageCell) : Bool :=
  c == .instr (.known op) (operands.map ImageOperand.int)

/-- The flag protocol on a sequence of image cells (spec/70_reset_and_hazards.md R193): each BE or BNE
has `SUB 1, 2, 0` immediately before it; `before` is the cell before the first one. -/
def flagProtocol (before : Option ImageCell) : List ImageCell → Bool
  | [] => true
  | c :: rest =>
    (match c with
      | .instr (.known .be) _ => before.any (isInstr .sub [1, 2, 0])
      | .instr (.known .bne) _ => before.any (isInstr .sub [1, 2, 0])
      | _ => true) && flagProtocol (some c) rest

/-- The opcodes generated code uses (spec/50_program_image_and_codegen.md R152 (a)), HLT apart. -/
def generatedOpcode : Opcode → Bool
  | .ld | .st | .add | .sub | .mod | .be | .bne | .jmp => true
  | .inc | .dec | .mv | .hlt => false

end Sys2Proof.Machine
end

