-- ==== Sys2Proof/Certificates/Slice0/Obligations.lean ====
section
/-! DEFINITION. The statements for the provers. Each docstring names the rule of spec/ it rests on, and
the spec's own decision or the log entry where it rests on one. -/

open Sys2Proof Sys2Proof.Machine

/-! ## Reset, launch -/

/-- State.reset has the launch values spec/10_state.md R24 gives (pc by decision D7, log 5; the counters
by D9): pc 0, both counters 0, Running, no latched instruction, every memory cell `Data(0)`. Nothing is
said of x[0..3] and Z, which have no value in the spec (log 4). -/
def Obligations.ResetHoldsLaunchValues : Prop :=
  State.reset.pc = 0 ∧ State.reset.instrCount = 0 ∧ State.reset.tickCount = 0 ∧
  State.reset.status = .running ∧ State.reset.ir = none ∧
  ∀ a, State.reset.mem.read a = .data 0

/-- A launch that is not refused (spec/70_reset_and_hazards.md R190, R191; spec/10_state.md R24): the
image was shorter than MEM_SIZE; each cell of memory is the cell of the image at its address, a data
integer as `Data` of that int32, an instruction with its opcode and its operands, a W32 word as it
stands; memory is zero-filled above the image; pc is 0 (decision D7, log 5), the counters are 0, the
status is Running, and x[0..3] and Z hold the values given as REG_RESET and Z_RESET, whatever they
are. -/
def Obligations.LaunchFillsMemory : Prop :=
  ∀ (image : List ImageCell) (p : Params) (regs : Vector Word 4) (z : Bool) (s : State),
    launch image p regs z = .ok s →
      image.length < p.memSize ∧
      (∀ (a : Nat) (v : Int), image[a]? = some (.data v) →
        ∃ w : Word, w.toInt = v ∧ s.mem.read a = .data w) ∧
      (∀ (a : Nat) (op : OpcodeField) (operands : List ImageOperand),
        image[a]? = some (.instr op operands) →
          ∃ ws : List Word, operands = ws.map (fun w => .int w.toInt) ∧
            s.mem.read a = .instr (.record ⟨op, ws⟩)) ∧
      (∀ (a : Nat) (w : BitVec 32), image[a]? = some (.word w) → s.mem.read a = .instr (.word w)) ∧
      (∀ a, image.length ≤ a → s.mem.read a = .data 0) ∧
      s.pc = 0 ∧ s.instrCount = 0 ∧ s.tickCount = 0 ∧ s.status = .running ∧ s.ir = none ∧
      s.params = p ∧ s.z = z ∧ ∀ i : Fin 4, s.reg i = regs[i.val]

/-- An image of at least MEM_SIZE cells is refused (spec/60_exceptions.md R172, decision D22), as
`ImageTooLarge` even where its cells would be refused too, which is the model's choice (log 11, DESIGN
CHOICE: the spec orders the refusals in no way). An image that holds a data integer or an operand
integer outside int32 (decision D21), or an operand that is a symbolic name, has no launch state. -/
def Obligations.LoaderRefusals : Prop :=
  (∀ (image : List ImageCell) (p : Params) (regs : Vector Word 4) (z : Bool),
    p.memSize ≤ image.length →
      launch image p regs z = .error (.imageTooLarge image.length p.memSize)) ∧
  (∀ (image : List ImageCell) (p : Params) (regs : Vector Word 4) (z : Bool) (v : Int),
    ImageCell.data v ∈ image → ¬ IsInt32 v → ∀ s, launch image p regs z ≠ .ok s) ∧
  (∀ (image : List ImageCell) (p : Params) (regs : Vector Word 4) (z : Bool) (op : OpcodeField)
    (operands : List ImageOperand) (v : Int), ImageCell.instr op operands ∈ image →
    ImageOperand.int v ∈ operands → ¬ IsInt32 v → ∀ s, launch image p regs z ≠ .ok s) ∧
  (∀ (image : List ImageCell) (p : Params) (regs : Vector Word 4) (z : Bool) (op : OpcodeField)
    (operands : List ImageOperand) (name : String), ImageCell.instr op operands ∈ image →
    ImageOperand.symbol name ∈ operands → ∀ s, launch image p regs z ≠ .ok s)

/-- A refusal of the loader has the cause its name says (spec/60_exceptions.md R172, decisions D21,
D22), whatever the order of the loader's tests: `ImageTooLarge` reports the two sizes, a refused
integer or symbolic operand stands in the image, and nothing else is refused but a MEM_SIZE outside
the bounds of spec/00_scope.md R5: above 2^31, or above 2^24 where the image holds a W32 word
(`memSizeOutOfRange`, a name of the model's own: log 12, DESIGN CHOICE). An opcode name and the shape of an element are the deserialiser's to refuse. -/
def Obligations.LoaderRefusalsHaveTheirCause : Prop :=
  ∀ (image : List ImageCell) (p : Params) (regs : Vector Word 4) (z : Bool) (e : LoadRefusal),
    launch image p regs z = .error e →
      match e with
      | .imageTooLarge n m => n = image.length ∧ m = p.memSize ∧ m ≤ n
      | .integerOutOfRange v => ¬ IsInt32 v ∧ (ImageCell.data v ∈ image ∨
          ∃ op operands, ImageCell.instr op operands ∈ image ∧ ImageOperand.int v ∈ operands)
      | .notAnInteger name =>
          ∃ op operands, ImageCell.instr op operands ∈ image ∧ ImageOperand.symbol name ∈ operands
      | .memSizeOutOfRange m => m = p.memSize ∧ (Config.maxMemSize < m ∨
          (Config.maxPackedMemSize < m ∧ ∃ w, ImageCell.word w ∈ image))
      | .unknownOpcodeName _ => False
      | .notAnImageElement => False

/-! ## Arithmetic -/

/-- ADD (spec/40_arithmetic.md R101), on every legal operand: x[rres] is the sum modulo 2^32, Z whether
that 32-bit value is zero (decision D10: it is, for -2^31 twice); nothing else changes but the ticks. An
illegal register operand is fatal (R13; that 4 and negative integers are illegal is decision D6, log 18),
here and for SUB, INC and DEC. -/
def Obligations.AddWritesWrappedSum : Prop :=
  (∀ (s : State) (a b d : Fin 4),
    exec (.add (gprOperand a) (gprOperand b) (gprOperand d)) s =
      .next { s with
        x := s.x.set d.val (wrap32 ((s.reg a).toInt + (s.reg b).toInt))
        z := decide (wrap32 ((s.reg a).toInt + (s.reg b).toInt) = 0)
        tickCount := s.tickCount + s.params.execTicks.add }) ∧
  (∀ (s : State) (r1 r2 rres : Word), ¬ (Instr.add r1 r2 rres).WellFormed →
    ∃ k, exec (.add r1 r2 rres) s = .fault (.registerIndexOutOfBounds k))

/-- SUB (spec/40_arithmetic.md R102): x[rres] is the difference modulo 2^32, and Z is set exactly when
the two sources are equal, overflow or not. What register operand is illegal is decision D6, log 18. -/
def Obligations.SubWritesWrappedDifference : Prop :=
  (∀ (s : State) (a b d : Fin 4),
    exec (.sub (gprOperand a) (gprOperand b) (gprOperand d)) s =
      .next { s with
        x := s.x.set d.val (wrap32 ((s.reg a).toInt - (s.reg b).toInt))
        z := decide (s.reg a = s.reg b)
        tickCount := s.tickCount + s.params.execTicks.sub }) ∧
  (∀ (s : State) (r1 r2 rres : Word), ¬ (Instr.sub r1 r2 rres).WellFormed →
    ∃ k, exec (.sub r1 r2 rres) s = .fault (.registerIndexOutOfBounds k))

/-- MOD with a divisor that is not zero (spec/40_arithmetic.md R103, R107 (iii), decision D12): x[rres]
is the remainder of the run's `MOD_CONVENTION`, floored, truncated or euclidean. -/
def Obligations.ModWritesRemainder : Prop :=
  ∀ (s : State) (a b d : Fin 4) (r : Int), s.reg b ≠ 0 →
    (r = match s.params.modConvention with
      | .floored => (s.reg a).toInt.fmod (s.reg b).toInt
      | .truncated => (s.reg a).toInt.tmod (s.reg b).toInt
      | .euclidean => (s.reg a).toInt.emod (s.reg b).toInt) →
    exec (.mod (gprOperand a) (gprOperand b) (gprOperand d)) s =
      .next { s with
        x := s.x.set d.val (wrap32 r)
        z := decide (wrap32 r = 0)
        tickCount := s.tickCount + s.params.execTicks.mod }

/-- What every `MOD_CONVENTION` has in common (spec/40_arithmetic.md R107): the result is an int32 whose
magnitude is less than the divisor's, Z is set exactly when the divisor divides the dividend, and for a
dividend >= 0 and a divisor > 0 the result is the ordinary remainder. -/
def Obligations.ModAgreesUnderEveryConvention : Prop :=
  ∀ (s t : State) (a b d : Fin 4),
    exec (.mod (gprOperand a) (gprOperand b) (gprOperand d)) s = .next t →
      (t.reg d).toInt.natAbs < (s.reg b).toInt.natAbs ∧
      t.z = decide ((s.reg b).toInt ∣ (s.reg a).toInt) ∧
      (0 ≤ (s.reg a).toInt → 0 < (s.reg b).toInt →
        (t.reg d).toInt = (s.reg a).toInt % (s.reg b).toInt)

/-- MOD with divisor zero is the fatal condition `DivisionByZero` (spec/40_arithmetic.md R107 (i),
decision D13). -/
def Obligations.ModByZeroFaults : Prop :=
  ∀ (s : State) (a b d : Fin 4), s.reg b = 0 →
    exec (.mod (gprOperand a) (gprOperand b) (gprOperand d)) s = .fault .divisionByZero

/-- INC (spec/40_arithmetic.md R104): Z is set exactly when the source is -1. What register operand is
illegal is decision D6, log 18. -/
def Obligations.IncWritesSuccessor : Prop :=
  (∀ (s : State) (a d : Fin 4),
    exec (.inc (gprOperand a) (gprOperand d)) s =
      .next { s with
        x := s.x.set d.val (wrap32 ((s.reg a).toInt + 1))
        z := decide ((s.reg a).toInt = -1)
        tickCount := s.tickCount + s.params.execTicks.inc }) ∧
  (∀ (s : State) (r rres : Word), ¬ (Instr.inc r rres).WellFormed →
    ∃ k, exec (.inc r rres) s = .fault (.registerIndexOutOfBounds k))

/-- DEC (spec/40_arithmetic.md R105): Z is set exactly when the source is 1. What register operand is
illegal is decision D6, log 18. -/
def Obligations.DecWritesPredecessor : Prop :=
  (∀ (s : State) (a d : Fin 4),
    exec (.dec (gprOperand a) (gprOperand d)) s =
      .next { s with
        x := s.x.set d.val (wrap32 ((s.reg a).toInt - 1))
        z := decide ((s.reg a).toInt = 1)
        tickCount := s.tickCount + s.params.execTicks.dec }) ∧
  (∀ (s : State) (r rres : Word), ¬ (Instr.dec r rres).WellFormed →
    ∃ k, exec (.dec r rres) s = .fault (.registerIndexOutOfBounds k))

/-! ## Data movement -/

/-- LD of a data cell (spec/41_data_movement.md, LD): x[rres] is the cell's word; Z is unspecified
(decision D11, log 6), so it is some value of which only `Z_NONARITH` says more. -/
def Obligations.LdLoadsDataCell : Prop :=
  ∀ (s : State) (addr v : Word) (d : Fin 4),
    0 ≤ addr.toInt → addr.toInt < s.params.memSize →
    s.mem.read addr.toInt.toNat = .data v →
      ∃ z, s.unspecifiedZ v z ∧
        exec (.ld addr (gprOperand d)) s =
          .next { s with
            x := s.x.set d.val v
            z := z
            tickCount := s.tickCount + s.params.execTicks.ld
            freeDraws := s.freeDraws + 1 }

/-- ST in bounds (spec/41_data_movement.md, ST; spec/20_memory.md R66): the cell becomes the data word
x[r], whatever it held, and every other cell reads as before; Z is unspecified (decision D11, log 6). -/
def Obligations.StStoresDataCell : Prop :=
  ∀ (s : State) (addr : Word) (a : Fin 4),
    0 ≤ addr.toInt → addr.toInt < s.params.memSize →
      ∃ z mem, s.unspecifiedZ (s.reg a) z ∧
        mem.read addr.toInt.toNat = .data (s.reg a) ∧
        (∀ k, k ≠ addr.toInt.toNat → mem.read k = s.mem.read k) ∧
        exec (.st (gprOperand a) addr) s =
          .next { s with
            z := z
            mem := mem
            tickCount := s.tickCount + s.params.execTicks.st
            freeDraws := s.freeDraws + 1 }

/-- MV (spec/41_data_movement.md, MV); Z is unspecified (decision D11, log 6). -/
def Obligations.MvCopiesRegister : Prop :=
  ∀ (s : State) (a d : Fin 4),
    ∃ z, s.unspecifiedZ (s.reg a) z ∧
      exec (.mv (gprOperand a) (gprOperand d)) s =
        .next { s with
          x := s.x.set d.val (s.reg a)
          z := z
          tickCount := s.tickCount + s.params.execTicks.mv
          freeDraws := s.freeDraws + 1 }

/-- A load after a completed store (spec/20_memory.md R70): the cell stored to gives the word stored,
every other address gives, or faults, as before the store. -/
def Obligations.LoadSeesLatestStore : Prop :=
  ∀ (s t : State) (addr : Word) (a : Fin 4),
    exec (.st (gprOperand a) addr) s = .next t →
      t.loadData addr.toInt = .ok (s.reg a) ∧
      ∀ k : Int, k ≠ addr.toInt → t.loadData k = s.loadData k

/-- LD and ST outside 0..MEM_SIZE-1, negative addresses included (spec/20_memory.md R62, decision D5). -/
def Obligations.AccessOutOfBoundsFaults : Prop :=
  ∀ (s : State) (addr : Word) (r : Fin 4),
    (addr.toInt < 0 ∨ s.params.memSize ≤ addr.toInt) →
      exec (.ld addr (gprOperand r)) s = .fault (.memoryOutOfBounds addr.toInt) ∧
      exec (.st (gprOperand r) addr) s = .fault (.memoryOutOfBounds addr.toInt)

/-- LD of a cell that holds an instruction (spec/20_memory.md R64, decision D4). -/
def Obligations.LoadOfInstructionCellFaults : Prop :=
  ∀ (s : State) (addr : Word) (p : Payload) (d : Fin 4),
    0 ≤ addr.toInt → addr.toInt < s.params.memSize →
    s.mem.read addr.toInt.toNat = .instr p →
      exec (.ld addr (gprOperand d)) s = .fault (.notADataCell addr.toInt)

/-! ## Control flow -/

/-- BE (spec/42_control_flow.md, BE; R39, R134): one tick and fall through when Z = 0, with Z kept; two
ticks and pc at the target, as it stands, when Z = 1, with Z unspecified (decision D11, log 6). -/
def Obligations.BeBranchesWhenZero : Prop :=
  ∀ (s : State) (target : Word),
    (s.z = false → exec (.be target) s = .next { s with tickCount := s.tickCount + 1 }) ∧
    (s.z = true → ∃ z, s.unspecifiedZ target z ∧
      exec (.be target) s =
        .next { s with
          x := s.x.set 4 target
          z := z
          tickCount := s.tickCount + 2
          freeDraws := s.freeDraws + 1 })

/-- BNE (spec/42_control_flow.md, BNE; R39, R134): as BE with the sense of Z reversed. -/
def Obligations.BneBranchesWhenNotZero : Prop :=
  ∀ (s : State) (target : Word),
    (s.z = true → exec (.bne target) s = .next { s with tickCount := s.tickCount + 1 }) ∧
    (s.z = false → ∃ z, s.unspecifiedZ target z ∧
      exec (.bne target) s =
        .next { s with
          x := s.x.set 4 target
          z := z
          tickCount := s.tickCount + 2
          freeDraws := s.freeDraws + 1 })

/-- JMP (spec/42_control_flow.md, JMP; R134): pc is the target as it stands; Z is unspecified (decision
D11, log 6). -/
def Obligations.JmpLoadsTarget : Prop :=
  ∀ (s : State) (target : Word),
    ∃ z, s.unspecifiedZ target z ∧
      exec (.jmp target) s =
        .next { s with
          x := s.x.set 4 target
          z := z
          tickCount := s.tickCount + s.params.execTicks.jmp
          freeDraws := s.freeDraws + 1 }

/-- HLT (spec/42_control_flow.md, HLT): the status is Halted; registers, pc, Z and memory are unchanged. -/
def Obligations.HltEndsTheRun : Prop :=
  ∀ s : State,
    exec .hlt s =
      .next { s with
        status := .halted
        tickCount := s.tickCount + s.params.execTicks.hlt }

/-- The comparison idiom (spec/42_control_flow.md R136): after `SUB a, b, d` Z says whether the two
registers were equal, a fetch keeps it, and the step that runs a BE next is taken exactly when they were
equal, the one that runs a BNE next exactly when they were not. -/
def Obligations.CompareThenBranch : Prop :=
  ∀ (s t : State) (a b d : Fin 4),
    exec (.sub (gprOperand a) (gprOperand b) (gprOperand d)) s = .next t →
      t.z = decide (s.reg a = s.reg b) ∧
      (∀ q u, t.fetch = .ok (q, u) → u.z = t.z) ∧
      (∀ q target, t.Fetches q → decodePayload q = .ok (.be target) →
        ∃ u, step t = .next u ∧
          u.pc = if s.reg a = s.reg b then target else wrap32 (s.pc.toInt + 1)) ∧
      (∀ q target, t.Fetches q → decodePayload q = .ok (.bne target) →
        ∃ u, step t = .next u ∧
          u.pc = if s.reg a = s.reg b then wrap32 (s.pc.toInt + 1) else target)

/-- A target is not checked by the jump: the jump retires, and the fetch of the next cycle raises the
fatal condition, for a target outside memory or at a data cell (spec/42_control_flow.md R135). -/
def Obligations.BadTargetFaultsAtNextFetch : Prop :=
  ∀ (s : State) (p : Payload) (target : Word),
    s.Fetches p → decodePayload p = .ok (.jmp target) →
    s.instrCount + 1 < s.params.stepLimit →
      ∃ t, step s = .next t ∧ t.pc = target ∧
        ((target.toInt < 0 ∨ s.params.memSize ≤ target.toInt) →
          step t = .fault (.memoryOutOfBounds target.toInt)) ∧
        (∀ v, 0 ≤ target.toInt → target.toInt < s.params.memSize →
          s.mem.read target.toInt.toNat = .data v →
          step t = .fault (.notAnInstruction target.toInt))

/-! ## Frames -/

/-- What ADD, SUB, MOD, INC and DEC leave unchanged (spec/40_arithmetic.md R100). -/
def Obligations.FrameOfArithmetic : Prop :=
  ∀ (i : Instr) (s t : State), definesFlag i = true → exec i s = .next t →
    (∀ j, destination i ≠ some (gprOperand j) → t.reg j = s.reg j) ∧
    t.pc = s.pc ∧ (∀ a, t.mem.read a = s.mem.read a) ∧ t.ir = s.ir ∧
    t.instrCount = s.instrCount ∧ t.status = s.status ∧ t.params = s.params ∧
    t.freeDraws = s.freeDraws

/-- What LD and MV leave unchanged (spec/41_data_movement.md, LD and MV): everything but the destination
register, Z and the ticks. -/
def Obligations.FrameOfLoadAndMove : Prop :=
  ∀ (i : Instr) (s t : State), (i.opcode = .ld ∨ i.opcode = .mv) → exec i s = .next t →
    (∀ j, destination i ≠ some (gprOperand j) → t.reg j = s.reg j) ∧
    t.pc = s.pc ∧ (∀ a, t.mem.read a = s.mem.read a) ∧ t.ir = s.ir ∧
    t.instrCount = s.instrCount ∧ t.status = s.status ∧ t.params = s.params

/-- What ST leaves unchanged (spec/41_data_movement.md, ST): every register, and every cell but the one at
the address stored to. -/
def Obligations.FrameOfStore : Prop :=
  ∀ (r addr : Word) (s t : State), exec (.st r addr) s = .next t →
    (∀ j, t.reg j = s.reg j) ∧ t.pc = s.pc ∧
    (∀ a : Int, storeAddress (.st r addr) = some a → 0 ≤ a ∧
      ∀ k : Nat, k ≠ a.toNat → t.mem.read k = s.mem.read k) ∧
    t.ir = s.ir ∧ t.instrCount = s.instrCount ∧ t.status = s.status ∧ t.params = s.params

/-- What BE, BNE and JMP leave unchanged (spec/42_control_flow.md R130 to R132, R134): every general
register, all of memory, the status; and pc, Z too when a conditional branch is not taken. -/
def Obligations.FrameOfTransfers : Prop :=
  ∀ (i : Instr) (s t : State), transfersControl i = true → exec i s = .next t →
    s.SameButControl t ∧ t.status = s.status ∧
    (∀ target, (i = .be target ∧ s.z = false) ∨ (i = .bne target ∧ s.z = true) →
      t.pc = s.pc ∧ t.z = s.z ∧ t.freeDraws = s.freeDraws)

/-- What HLT leaves unchanged (spec/42_control_flow.md R133): every register, pc, Z and all of memory. -/
def Obligations.FrameOfHalt : Prop :=
  ∀ s t : State, exec .hlt s = .next t →
    s.SameButControl t ∧ t.pc = s.pc ∧ t.z = s.z ∧ t.freeDraws = s.freeDraws

/-! ## Register operands -/

/-- A register operand outside 0..3 (4, the pc, among them) is fatal, the first one in operand order is
the one reported, and nothing else of the instruction is tested before it (spec/10_state.md R13, decision
D6; spec/60_exceptions.md R173, decision D16); a well-formed instruction never raises that condition. -/
def Obligations.IllegalRegisterOperandFaults : Prop :=
  (∀ (i : Instr) (s : State) (w : Word),
    i.registerOperands.find? (fun r => !decide (IsRegisterIndex r)) = some w →
      exec i s = .fault (.registerIndexOutOfBounds w.toInt)) ∧
  (∀ (i : Instr) (s : State) (k : Int), i.WellFormed →
    exec i s ≠ .fault (.registerIndexOutOfBounds k))

/-! ## The zero flag -/

/-- Writers and readers of Z (spec/10_state.md R15): the five arithmetic instructions set it to whether
the result they latch is zero; the fetch, an untaken BE or BNE and HLT leave it unchanged; it is read by
BE and BNE only, so that for any other instruction the flag before changes nothing but the flag after. That it is the
wrapped 32-bit result, for ADD of -2^31 twice, is decision D10 (log 26). -/
def Obligations.FlagWritersAndReaders : Prop :=
  (∀ (i : Instr) (s t : State) (d : Fin 4), definesFlag i = true → exec i s = .next t →
    destination i = some (gprOperand d) → t.z = decide (t.reg d = 0)) ∧
  (∀ (s t : State) (p : Payload), s.fetch = .ok (p, t) → t.z = s.z) ∧
  (∀ (i : Instr) (s t : State) (target : Word), exec i s = .next t →
    (i = .hlt ∨ (i = .be target ∧ s.z = false) ∨ (i = .bne target ∧ s.z = true)) → t.z = s.z) ∧
  (∀ (i : Instr) (s : State) (b : Bool), readsFlag i = false →
    mapNext State.forgetFlag (exec i { s with z := b }) = mapNext State.forgetFlag (exec i s))

/-! ## The instruction cycle -/

/-- The fetch (spec/15_datapath_control.md R36): pc is incremented modulo 2^32 and Z, the general
registers and memory are unchanged; with the read the fetch costs two ticks; and the instruction is
decoded and executed in the state that leaves, so that a branch that is not taken falls through. -/
def Obligations.FetchIncrementsPcAndKeepsFlag : Prop :=
  ∀ (s t : State) (p : Payload), s.fetch = .ok (p, t) →
    t.pc = wrap32 (s.pc.toInt + 1) ∧ t.z = s.z ∧ t.tickCount = s.tickCount + 2 ∧
    (∀ j, t.reg j = s.reg j) ∧ t.mem = s.mem ∧ t.ir = some p ∧ t.instrCount = s.instrCount ∧
    t.status = s.status ∧ t.params = s.params ∧ t.freeDraws = s.freeDraws ∧
    (s.status = .running → s.instrCount < s.params.stepLimit →
      ∀ i, decodePayload p = .ok i → step s = retireResult (exec i t)) ∧
    (∀ target u, (t.z = false ∧ exec (.be target) t = .next u) ∨
        (t.z = true ∧ exec (.bne target) t = .next u) → u.pc = wrap32 (s.pc.toInt + 1))

/-- A step runs the decoded instruction (spec/15_datapath_control.md R44): where a cycle reaches the
decode of `p` and `p` decodes to `i`, the step is `exec i` in the state with pc incremented, two ticks
counted and the latch filled, and an instruction that completes is then counted (R40, decision D26). -/
def Obligations.StepRunsDecodedInstruction : Prop :=
  ∀ (s : State) (p : Payload) (i : Instr), s.Fetches p → decodePayload p = .ok i →
    step s =
      match exec i { s with
        x := s.x.set 4 (wrap32 (s.pc.toInt + 1))
        tickCount := s.tickCount + 2
        ir := some p } with
      | .next t => .next { t with instrCount := t.instrCount + 1 }
      | .fault f => .fault f
      | .refused r => .refused r

/-- The step ceiling comes before everything else of a cycle (spec/15_datapath_control.md R42, decision
D15; spec/60_exceptions.md R173, decision D16). -/
def Obligations.CeilingFaultsBeforeFetch : Prop :=
  ∀ s : State, s.status = .running → s.params.stepLimit ≤ s.instrCount →
    step s = .fault (.stepLimitExceeded s.instrCount)

/-- Below the ceiling, a fetch outside memory is `MemoryOutOfBounds(pc)`, and a fetch of a data cell is
`NotAnInstruction(pc)` (spec/15_datapath_control.md R44; spec/20_memory.md R62, R65, decisions D3, D5). -/
def Obligations.FetchFaults : Prop :=
  ∀ s : State, s.status = .running → s.instrCount < s.params.stepLimit →
    ((s.pc.toInt < 0 ∨ s.params.memSize ≤ s.pc.toInt) →
      step s = .fault (.memoryOutOfBounds s.pc.toInt)) ∧
    (∀ v, 0 ≤ s.pc.toInt → s.pc.toInt < s.params.memSize →
      s.mem.read s.pc.toInt.toNat = .data v → step s = .fault (.notAnInstruction s.pc.toInt))

/-- A record whose opcode is none of the twelve is `UnknownOpcode` when it is decoded
(spec/30_encoding.md R86), whatever its operands. -/
def Obligations.UnknownOpcodeFaults : Prop :=
  ∀ (s : State) (name : String) (ops : List Word), s.Fetches (.record ⟨.unknown name, ops⟩) →
    step s = .fault (.unknownOpcode (.name name))

/-- Operand counts (spec/30_encoding.md R85): a record with as many operands as its opcode's arity decodes
to the instruction with that record; a record with more or fewer raises `MalformedInstruction` when it
is fetched, and only a fetched one does so with a count. That a packed word's fault carries no count is
the model's choice (log 8, DESIGN CHOICE), and that the count is tested before the register operands is
decision D16 (log 17). -/
def Obligations.OperandCountIsChecked : Prop :=
  (∀ (op : Opcode) (ops : List Word), ops.length = op.arity →
    ∃ i : Instr, decodeRecord ⟨.known op, ops⟩ = .ok i ∧ i.toRecord = ⟨.known op, ops⟩) ∧
  (∀ (s : State) (op : Opcode) (ops : List Word), s.Fetches (.record ⟨.known op, ops⟩) →
    ops.length ≠ op.arity → step s = .fault (.malformedInstruction op (some ops.length))) ∧
  (∀ (s : State) (op : Opcode) (n : Nat), step s = .fault (.malformedInstruction op (some n)) →
    ∃ ops, s.Fetches (.record ⟨.known op, ops⟩) ∧ ops.length = n ∧ n ≠ op.arity)

/-- The run status (spec/10_state.md R22): Running at launch; a step that completes leaves Running, or
Halted when the instruction was HLT; a fatal condition makes it Faulted with its reason (that no state
stands after it is log 9); no step is taken from Halted or Faulted (that the model's step then answers
the refusal `runEnded` is log 10). -/
def Obligations.StatusChangesOnlyAtTheEnd : Prop :=
  (∀ (image : List ImageCell) (p : Params) (regs : Vector Word 4) (z : Bool) (s : State),
    launch image p regs z = .ok s → s.status = .running) ∧
  (∀ (s t : State), step s = .next t → ∃ p i, s.Fetches p ∧ decodePayload p = .ok i ∧
    t.status = if i = .hlt then .halted else .running) ∧
  (∀ (s : State) (f : Fault), step s = .fault f →
    s.status = .running ∧ statusAfter (step s) = some (.faulted f)) ∧
  (∀ s : State, s.status ≠ .running → step s = .refused .runEnded)

/-- A step from Running is never refused: every instruction has its meaning (spec/30_encoding.md R81),
and every other outcome is a fatal condition (spec/60_exceptions.md R171). -/
def Obligations.RunningMachineIsNeverRefused : Prop :=
  ∀ (s : State) (r : Refusal), s.status = .running → step s ≠ .refused r

/-- One tick to evaluate the flag and, only if the branch is taken, a further tick
(spec/15_datapath_control.md R39). -/
def Obligations.ConditionalBranchTicks : Prop :=
  ∀ (s t : State) (target : Word),
    (exec (.be target) s = .next t →
      t.tickCount = s.tickCount + if s.z = true then 2 else 1) ∧
    (exec (.bne target) s = .next t →
      t.tickCount = s.tickCount + if s.z = false then 2 else 1)

/-- Each completed step retires one instruction and pays at least the two fetch ticks
(spec/15_datapath_control.md R40, decision D26; R41). -/
def Obligations.StepCountsInstructionAndTicks : Prop :=
  ∀ s t : State, step s = .next t →
    t.instrCount = s.instrCount + 1 ∧ s.tickCount + 2 ≤ t.tickCount

/-! ## Whole-machine rules -/

/-- Every step keeps the invariant: memory in canonical form inside MEM_SIZE, at most STEP_LIMIT
instructions retired, at least two ticks for each (spec/20_memory.md R60;
spec/15_datapath_control.md R41, R42). -/
def Obligations.StepKeepsInvariant : Prop :=
  ∀ s t : State, s.Inv → step s = .next t → t.Inv

/-- The reset state meets the invariant. -/
def Obligations.ResetMeetsInvariant : Prop := State.reset.Inv

/-- Every launch state meets the invariant (spec/70_reset_and_hazards.md R190). -/
def Obligations.LaunchMeetsInvariant : Prop :=
  ∀ (image : List ImageCell) (p : Params) (regs : Vector Word 4) (z : Bool) (s : State),
    launch image p regs z = .ok s → s.Inv

/-- No instruction can create an instruction cell (spec/20_memory.md R72): a cell that holds an
instruction after a step held the same one before; and memory changes only by a store (R63), at the one
cell of its address operand, which then holds a data word. -/
def Obligations.OnlyStoresWriteAndOnlyData : Prop :=
  ∀ s t : State, step s = .next t →
    (∀ a p, t.mem.read a = .instr p → s.mem.read a = .instr p) ∧
    (∀ a, t.mem.read a ≠ s.mem.read a →
      ∃ p r addr, s.Fetches p ∧ decodePayload p = .ok (.st r addr) ∧ addr.toInt = (a : Int) ∧
        ∃ v, t.mem.read a = .data v)

/-- No step changes a parameter of the run (spec/00_scope.md R5: "the size does not change during a
run"; log 2). -/
def Obligations.ParametersAreConstant : Prop :=
  ∀ s t : State, step s = .next t → t.params = s.params

/-- Every run ends (spec/70_reset_and_hazards.md R200): from any running state the run to halt or ceiling
has a report, and a run that halts has retired at most STEP_LIMIT instructions. -/
def Obligations.EveryRunEnds : Prop :=
  ∀ s : State, s.status = .running →
    (∃ r, runToEnd s = some r) ∧
    (∀ n k x z m, runToEnd s = some (.halted n k x z m) → n ≤ s.params.stepLimit)

/-- The latch's content never survives into the next cycle (spec/10_state.md R18). -/
def Obligations.LatchNeverSurvives : Prop :=
  ∀ (s : State) (q : Option Payload), step { s with ir := q } = step s

/-- Ticks are accounting only (spec/70_reset_and_hazards.md R197): another tick count and other
`EXEC_TICKS` change nothing of a step but the tick count after it. -/
def Obligations.TicksChangeNothingElse : Prop :=
  ∀ (s : State) (k : Nat) (e : ExecTicks),
    mapNext State.forgetTiming
        (step { s with tickCount := k, params := { s.params with execTicks := e } }) =
      mapNext State.forgetTiming (step s)

/-- The reference micro-sequences over the datapath (spec/15_datapath_control.md R45, informative; log 21)
do what the instructions' own rules say, tick counts, free values of Z and faults included, with the
instruction in the latch; and the two fetch rows are the fetch. -/
def Obligations.MicroSequencesMeetTheRules : Prop :=
  (∀ (i : Instr) (s : State) (p : Payload), s.ir = some p → decodePayload p = .ok i →
    microExec i s = exec i s) ∧
  (∀ (s t : State), s.microRun fetchSequence = .ok t ↔ ∃ p, s.fetch = .ok (p, t)) ∧
  (∀ (s : State) (f : Fault), s.microRun fetchSequence = .error f ↔ s.fetch = .error f)

/-! ## Encoding -/

/-- Words written out from the field table and the examples of spec/30_encoding.md R90 (decision D19)
decode as they say, one for each opcode. -/
def Obligations.W32WordsDecode : Prop :=
  decodeTableWord 32 0x01200000 = some (.add 1 2 0) ∧
  decodeTableWord 32 0x11200000 = some (.sub 1 2 0) ∧
  decodeTableWord 32 0x20230000 = some (.mod 0 2 3) ∧
  decodeTableWord 32 0x33300000 = some (.inc 3 3) ∧
  decodeTableWord 32 0x41000000 = some (.dec 1 0) ∧
  decodeTableWord 32 0x51000005 = some (.ld 5 1) ∧
  decodeTableWord 32 0x60000007 = some (.st 0 7) ∧
  decodeTableWord 32 0x73200000 = some (.mv 3 2) ∧
  decodeTableWord 32 0x80000009 = some (.be 9) ∧
  decodeTableWord 32 0x90000004 = some (.bne 4) ∧
  decodeTableWord 32 0xA0000000 = some (.jmp 0) ∧
  decodeTableWord 32 0xB0000000 = some .hlt

/-- W32 words that match no row (spec/30_encoding.md R91, decision D19), decoded and run: opcode field 12
to 15 is an unknown opcode, a must-be-zero bit set is a malformed instruction of that opcode, when such a
word is fetched. That the malformed word's fault carries no operand count is the model's choice (log 8,
DESIGN CHOICE). -/
def Obligations.W32WordsRejected : Prop :=
  ∀ w : BitVec 32,
    (12 ≤ w.toNat / 268435456 →
      decodeWord w = .error (.unknownOpcode (.number (w.toNat / 268435456))) ∧
      ∀ s : State, s.Fetches (.word w) →
        step s = .fault (.unknownOpcode (.number (w.toNat / 268435456)))) ∧
    (∀ op : Opcode, w.toNat / 268435456 = (opcodeNumber op).toNat →
      w &&& (w32Row op).mask ≠ (w32Row op).pattern →
      decodeWord w = .error (.malformedInstruction op none) ∧
      ∀ s : State, s.Fetches (.word w) → step s = .fault (.malformedInstruction op none))

/-- Decode of encode is the instruction, for every instruction that has a W32 form, every operand at
every value its field admits (spec/30_encoding.md R90, decision D19). -/
def Obligations.DecodeReadsBackEncoding : Prop :=
  ∀ i : Instr, i.Packable → decodeWord (encode i) = .ok i

/-- A word the decoder accepts is the encoding of the instruction it answers, so no word has two readings
and no bit is dropped (spec/30_encoding.md R90, decision D19). -/
def Obligations.AcceptedWordIsItsEncoding : Prop :=
  ∀ (w : BitVec 32) (i : Instr), decodeWord w = .ok i → i.Packable ∧ encode i = w

/-- The serialised form (spec/30_encoding.md R88): an image of integers and records, written and read
back under any two distinct key names, is the same image; and an opcode name that is none of the twelve
is refused. -/
def Obligations.SerialisedImageReadsBack : Prop :=
  (∀ (k : JsonKeys) (cells : List ImageCell) (es : List JsonElement), k.opcode ≠ k.operands →
    (∀ w, ImageCell.word w ∉ cells) → writeImage k cells = some es →
      readImage k es = .ok cells) ∧
  (∀ (k : JsonKeys) (name : String) (operands : List ImageOperand), k.opcode ≠ k.operands →
    (∀ op, name ≠ opcodeName op) →
      readElement k (.object [(k.opcode, .str name), (k.operands, .list operands)]) =
        .error (.unknownOpcodeName name))

/-! ## The code generator's contract -/

/-- The image of every program the generator accepts (spec/50_program_image_and_codegen.md R140, R141,
R143, R152 (a), (e), (f)): the emitted instructions in emission order with integer operands, the only
HLT last, then one data cell for each declared variable, each declared once, in declaration order with
its initial value; a variable operand is the address of its variable's cell, every branch target is an
instruction address and every LD and ST address lies in the data segment. -/
def Obligations.GeneratedImageLayout : Prop :=
  ∀ (program : Statement) (image : List ImageCell), generate program = .ok image →
    ∃ (g : GenState) (code : List (Opcode × List Int)), lowerStatement program {} = .ok g ∧
      image = code.map (fun i => ImageCell.instr (.known i.1) (i.2.map ImageOperand.int)) ++
        [ImageCell.instr (.known .hlt) []] ++ g.symbols.map (fun e => ImageCell.data e.2) ∧
      (g.symbols.map Prod.fst).Nodup ∧
      code.map Prod.fst = g.code.map SymInstr.op ∧
      (∀ (k j : Nat) (i : SymInstr) (e : Opcode × List Int) (name : String),
        g.code[k]? = some i → code[k]? = some e → i.operands[j]? = some (.var name) →
          ∃ d : Nat, symbolIndex g.symbols name = some d ∧
            e.2[j]? = some ((code.length + 1 + d : Nat) : Int)) ∧
      ∀ i ∈ code, generatedOpcode i.1 = true ∧ i.2.length = i.1.arity ∧
        ((i.1 = .be ∨ i.1 = .bne ∨ i.1 = .jmp) → ∀ a ∈ i.2, 0 ≤ a ∧ a ≤ code.length) ∧
        (i.1 = .ld → ∀ a, i.2.head? = some a →
          code.length + 1 ≤ a ∧ a < code.length + 1 + g.symbols.length) ∧
        (i.1 = .st → ∀ a, i.2.getLast? = some a →
          code.length + 1 ≤ a ∧ a < code.length + 1 + g.symbols.length)

/-- Every BE and BNE of a generated image has `SUB 1, 2, 0` immediately before it
(spec/50_program_image_and_codegen.md R152 (d)): generated code keeps the flag protocol
(spec/70_reset_and_hazards.md R193). -/
def Obligations.GeneratedCodeKeepsFlagProtocol : Prop :=
  ∀ (program : Statement) (image : List ImageCell), generate program = .ok image →
    flagProtocol none image = true
end

