-- ==== Sys2Proof/Laws/State.lean ====
section
/-! SUPPORT. Each field of State after each named update, and the registers after a register write, so
that no later proof unfolds a record update. -/

namespace Sys2Proof.Machine

/-! ## setReg -/

@[simp] theorem State.setReg_x (s : State) (i : Fin 4) (v : Word) : (s.setReg i v).x = s.x.set i.val v := rfl
@[simp] theorem State.setReg_z (s : State) (i : Fin 4) (v : Word) : (s.setReg i v).z = s.z := rfl
@[simp] theorem State.setReg_mem (s : State) (i : Fin 4) (v : Word) : (s.setReg i v).mem = s.mem := rfl
@[simp] theorem State.setReg_ir (s : State) (i : Fin 4) (v : Word) : (s.setReg i v).ir = s.ir := rfl
@[simp] theorem State.setReg_instrCount (s : State) (i : Fin 4) (v : Word) : (s.setReg i v).instrCount = s.instrCount := rfl
@[simp] theorem State.setReg_tickCount (s : State) (i : Fin 4) (v : Word) : (s.setReg i v).tickCount = s.tickCount := rfl
@[simp] theorem State.setReg_status (s : State) (i : Fin 4) (v : Word) : (s.setReg i v).status = s.status := rfl
@[simp] theorem State.setReg_params (s : State) (i : Fin 4) (v : Word) : (s.setReg i v).params = s.params := rfl
@[simp] theorem State.setReg_freeDraws (s : State) (i : Fin 4) (v : Word) : (s.setReg i v).freeDraws = s.freeDraws := rfl

/-! ## setPc -/

@[simp] theorem State.setPc_x (s : State) (v : Word) : (s.setPc v).x = s.x.set 4 v := rfl
@[simp] theorem State.setPc_z (s : State) (v : Word) : (s.setPc v).z = s.z := rfl
@[simp] theorem State.setPc_mem (s : State) (v : Word) : (s.setPc v).mem = s.mem := rfl
@[simp] theorem State.setPc_ir (s : State) (v : Word) : (s.setPc v).ir = s.ir := rfl
@[simp] theorem State.setPc_instrCount (s : State) (v : Word) : (s.setPc v).instrCount = s.instrCount := rfl
@[simp] theorem State.setPc_tickCount (s : State) (v : Word) : (s.setPc v).tickCount = s.tickCount := rfl
@[simp] theorem State.setPc_status (s : State) (v : Word) : (s.setPc v).status = s.status := rfl
@[simp] theorem State.setPc_params (s : State) (v : Word) : (s.setPc v).params = s.params := rfl
@[simp] theorem State.setPc_freeDraws (s : State) (v : Word) : (s.setPc v).freeDraws = s.freeDraws := rfl

/-! ## tick -/

@[simp] theorem State.tick_x (s : State) (k : Nat) : (s.tick k).x = s.x := rfl
@[simp] theorem State.tick_z (s : State) (k : Nat) : (s.tick k).z = s.z := rfl
@[simp] theorem State.tick_mem (s : State) (k : Nat) : (s.tick k).mem = s.mem := rfl
@[simp] theorem State.tick_ir (s : State) (k : Nat) : (s.tick k).ir = s.ir := rfl
@[simp] theorem State.tick_instrCount (s : State) (k : Nat) : (s.tick k).instrCount = s.instrCount := rfl
@[simp] theorem State.tick_tickCount (s : State) (k : Nat) : (s.tick k).tickCount = s.tickCount + k := rfl
@[simp] theorem State.tick_status (s : State) (k : Nat) : (s.tick k).status = s.status := rfl
@[simp] theorem State.tick_params (s : State) (k : Nat) : (s.tick k).params = s.params := rfl
@[simp] theorem State.tick_freeDraws (s : State) (k : Nat) : (s.tick k).freeDraws = s.freeDraws := rfl

/-! ## retire -/

@[simp] theorem State.retire_x (s : State) : s.retire.x = s.x := rfl
@[simp] theorem State.retire_z (s : State) : s.retire.z = s.z := rfl
@[simp] theorem State.retire_mem (s : State) : s.retire.mem = s.mem := rfl
@[simp] theorem State.retire_ir (s : State) : s.retire.ir = s.ir := rfl
@[simp] theorem State.retire_instrCount (s : State) : s.retire.instrCount = s.instrCount + 1 := rfl
@[simp] theorem State.retire_tickCount (s : State) : s.retire.tickCount = s.tickCount := rfl
@[simp] theorem State.retire_status (s : State) : s.retire.status = s.status := rfl
@[simp] theorem State.retire_params (s : State) : s.retire.params = s.params := rfl
@[simp] theorem State.retire_freeDraws (s : State) : s.retire.freeDraws = s.freeDraws := rfl

/-! ## halt -/

@[simp] theorem State.halt_x (s : State) : s.halt.x = s.x := rfl
@[simp] theorem State.halt_z (s : State) : s.halt.z = s.z := rfl
@[simp] theorem State.halt_mem (s : State) : s.halt.mem = s.mem := rfl
@[simp] theorem State.halt_ir (s : State) : s.halt.ir = s.ir := rfl
@[simp] theorem State.halt_instrCount (s : State) : s.halt.instrCount = s.instrCount := rfl
@[simp] theorem State.halt_tickCount (s : State) : s.halt.tickCount = s.tickCount := rfl
@[simp] theorem State.halt_status (s : State) : s.halt.status = .halted := rfl
@[simp] theorem State.halt_params (s : State) : s.halt.params = s.params := rfl
@[simp] theorem State.halt_freeDraws (s : State) : s.halt.freeDraws = s.freeDraws := rfl

/-! ## drawZ -/

@[simp] theorem State.drawZ_x (s : State) (op : Opcode) (v : Word) : (s.drawZ op v).x = s.x := rfl
@[simp] theorem State.drawZ_z (s : State) (op : Opcode) (v : Word) : (s.drawZ op v).z = s.nonArithZ op v := rfl
@[simp] theorem State.drawZ_mem (s : State) (op : Opcode) (v : Word) : (s.drawZ op v).mem = s.mem := rfl
@[simp] theorem State.drawZ_ir (s : State) (op : Opcode) (v : Word) : (s.drawZ op v).ir = s.ir := rfl
@[simp] theorem State.drawZ_instrCount (s : State) (op : Opcode) (v : Word) : (s.drawZ op v).instrCount = s.instrCount := rfl
@[simp] theorem State.drawZ_tickCount (s : State) (op : Opcode) (v : Word) : (s.drawZ op v).tickCount = s.tickCount := rfl
@[simp] theorem State.drawZ_status (s : State) (op : Opcode) (v : Word) : (s.drawZ op v).status = s.status := rfl
@[simp] theorem State.drawZ_params (s : State) (op : Opcode) (v : Word) : (s.drawZ op v).params = s.params := rfl
@[simp] theorem State.drawZ_freeDraws (s : State) (op : Opcode) (v : Word) : (s.drawZ op v).freeDraws = s.freeDraws + 1 := rfl

/-! ## fetched -/

@[simp] theorem State.fetched_x (s : State) (p : Payload) : (s.fetched p).x = s.x.set 4 (wrap32 (s.pc.toInt + 1)) := rfl
@[simp] theorem State.fetched_z (s : State) (p : Payload) : (s.fetched p).z = s.z := rfl
@[simp] theorem State.fetched_mem (s : State) (p : Payload) : (s.fetched p).mem = s.mem := rfl
@[simp] theorem State.fetched_ir (s : State) (p : Payload) : (s.fetched p).ir = some p := rfl
@[simp] theorem State.fetched_instrCount (s : State) (p : Payload) : (s.fetched p).instrCount = s.instrCount := rfl
@[simp] theorem State.fetched_tickCount (s : State) (p : Payload) : (s.fetched p).tickCount = s.tickCount + 2 := rfl
@[simp] theorem State.fetched_status (s : State) (p : Payload) : (s.fetched p).status = s.status := rfl
@[simp] theorem State.fetched_params (s : State) (p : Payload) : (s.fetched p).params = s.params := rfl
@[simp] theorem State.fetched_freeDraws (s : State) (p : Payload) : (s.fetched p).freeDraws = s.freeDraws := rfl

/-! ## Reading registers after an update -/

theorem State.reg_eq (s : State) (i : Fin 4) : s.reg i = s.x[i.val] := rfl

theorem State.pc_eq (s : State) : s.pc = s.x[4] := rfl

@[simp] theorem State.setReg_reg_same (s : State) (i : Fin 4) (v : Word) :
    (s.setReg i v).reg i = v := by
  simp [State.reg]

theorem State.setReg_reg_of_ne (s : State) {i j : Fin 4} (v : Word) (h : i ≠ j) :
    (s.setReg i v).reg j = s.reg j := by
  have : i.val ≠ j.val := fun e => h (Fin.ext e)
  simp [State.reg, this]

@[simp] theorem State.setReg_pc (s : State) (i : Fin 4) (v : Word) : (s.setReg i v).pc = s.pc := by
  have : i.val ≠ 4 := by omega
  simp [State.pc, this]

@[simp] theorem State.setPc_pc (s : State) (v : Word) : (s.setPc v).pc = v := by
  simp [State.pc]

@[simp] theorem State.setPc_reg (s : State) (i : Fin 4) (v : Word) : (s.setPc v).reg i = s.reg i := by
  have : 4 ≠ i.val := by omega
  simp [State.reg, this]

@[simp] theorem State.fetched_reg (s : State) (p : Payload) (i : Fin 4) :
    (s.fetched p).reg i = s.reg i := by
  have : 4 ≠ i.val := by omega
  simp [State.reg, this]

@[simp] theorem State.fetched_pc (s : State) (p : Payload) :
    (s.fetched p).pc = wrap32 (s.pc.toInt + 1) := by
  simp [State.pc]

@[simp] theorem State.tick_reg (s : State) (k : Nat) (j : Fin 4) : (s.tick k).reg j = s.reg j := rfl
@[simp] theorem State.tick_pc (s : State) (k : Nat) : (s.tick k).pc = s.pc := rfl
@[simp] theorem State.retire_reg (s : State) (j : Fin 4) : s.retire.reg j = s.reg j := rfl
@[simp] theorem State.retire_pc (s : State) : s.retire.pc = s.pc := rfl
@[simp] theorem State.halt_reg (s : State) (j : Fin 4) : s.halt.reg j = s.reg j := rfl
@[simp] theorem State.halt_pc (s : State) : s.halt.pc = s.pc := rfl
@[simp] theorem State.drawZ_reg (s : State) (op : Opcode) (v : Word) (j : Fin 4) : (s.drawZ op v).reg j = s.reg j := rfl
@[simp] theorem State.drawZ_pc (s : State) (op : Opcode) (v : Word) : (s.drawZ op v).pc = s.pc := rfl

/-- Z after a draw under `preserve` (spec/10_state.md R16). -/
theorem State.nonArithZ_preserve (s : State) (op : Opcode) (v : Word)
    (h : s.params.zNonArith = .preserve) : s.nonArithZ op v = s.z := by
  simp [State.nonArithZ, h]

/-- Z after a draw under `from_value` (spec/10_state.md R16). -/
theorem State.nonArithZ_fromValue (s : State) (op : Opcode) (v : Word)
    (h : s.params.zNonArith = .fromValue) : s.nonArithZ op v = zeroFlag v := by
  simp [State.nonArithZ, h]

end Sys2Proof.Machine
end

