-- ==== Sys2Proof/Laws/Memory.lean ====
section
/-! SUPPORT. The laws of the memory: a read after a write, and that every memory operation keeps the
canonical form. -/

namespace Sys2Proof.Machine

theorem Memory.read_clear (m : Memory) (a b : Nat) :
    (m.clear a).read b = if b = a then zeroCell else m.read b := by
  induction m with
  | nil => simp [Memory.clear, Memory.read]
  | cons p m ih =>
    obtain ⟨k, c⟩ := p
    by_cases hk : k = a
    · subst hk
      by_cases hb : b = k
      · subst hb; simpa [Memory.clear] using ih
      · simp [Memory.clear, Memory.read, ih, hb, Ne.symm hb]
    · by_cases hb : k = b
      · subst hb; simp [Memory.clear, Memory.read, hk]
      · simp [Memory.clear, Memory.read, hk, hb, ih]

theorem Memory.read_insert (m : Memory) (a b : Nat) (c : Cell) :
    (m.insert a c).read b = if b = a then c else m.read b := by
  induction m with
  | nil =>
    by_cases hb : b = a
    · simp [Memory.insert, Memory.read, hb]
    · simp [Memory.insert, Memory.read, hb, Ne.symm hb]
  | cons p m ih =>
    obtain ⟨k, d⟩ := p
    simp only [Memory.insert]
    split
    · by_cases hb : b = a
      · simp [Memory.read, hb]
      · simp [Memory.read, hb, Ne.symm hb]
    · split
      · rename_i h; subst h
        by_cases hb : b = a
        · simp [Memory.read, hb]
        · simp [Memory.read, hb, Ne.symm hb]
      · rename_i h
        by_cases hb : k = b
        · subst hb; simp [Memory.read, Ne.symm h]
        · simp [Memory.read, hb, ih]

/-- A read after a write: the cell written at the address written, the old cell everywhere else. -/
theorem Memory.read_write (m : Memory) (a b : Nat) (c : Cell) :
    (m.write a c).read b = if b = a then c else m.read b := by
  unfold Memory.write
  split
  · rename_i h; rw [Memory.read_clear, h]
  · rw [Memory.read_insert]

theorem Memory.mem_clear {m : Memory} {a : Nat} {p : Nat × Cell} (h : p ∈ m.clear a) : p ∈ m := by
  induction m with
  | nil => simp [Memory.clear] at h
  | cons q m ih =>
    obtain ⟨k, c⟩ := q
    simp only [Memory.clear] at h
    split at h
    · exact List.mem_cons_of_mem _ (ih h)
    · rcases List.mem_cons.1 h with h | h
      · simp [h]
      · exact List.mem_cons_of_mem _ (ih h)

theorem Memory.mem_insert {m : Memory} {a : Nat} {c : Cell} {p : Nat × Cell}
    (h : p ∈ m.insert a c) : p = (a, c) ∨ p ∈ m := by
  induction m with
  | nil => left; simpa [Memory.insert] using h
  | cons q m ih =>
    obtain ⟨k, d⟩ := q
    simp only [Memory.insert] at h
    split at h
    · exact List.mem_cons.1 h
    · split at h
      · rcases List.mem_cons.1 h with h | h
        · exact .inl h
        · exact .inr (List.mem_cons_of_mem _ h)
      · rcases List.mem_cons.1 h with h | h
        · right; simp [h]
        · exact (ih h).imp_right (List.mem_cons_of_mem _)

/-- Every entry after a write is the one written or an old one. -/
theorem Memory.mem_write {m : Memory} {a : Nat} {c : Cell} {p : Nat × Cell}
    (h : p ∈ m.write a c) : p = (a, c) ∨ p ∈ m := by
  unfold Memory.write at h
  split at h
  · exact .inr (Memory.mem_clear h)
  · exact Memory.mem_insert h

theorem Memory.wf_clear {m : Memory} (a : Nat) (h : m.wf) : (m.clear a).wf := by
  refine ⟨?_, fun p hp => h.2 p (Memory.mem_clear hp)⟩
  have h1 := h.1
  clear h
  induction m with
  | nil => simp [Memory.clear]
  | cons q m ih =>
    obtain ⟨k, c⟩ := q
    rw [List.pairwise_cons] at h1
    simp only [Memory.clear]
    split
    · exact ih h1.2
    · exact List.pairwise_cons.2 ⟨fun p hp => h1.1 p (Memory.mem_clear hp), ih h1.2⟩

theorem Memory.wf_insert {m : Memory} (a : Nat) {c : Cell} (h : m.wf) (hc : c ≠ zeroCell) :
    (m.insert a c).wf := by
  refine ⟨?_, fun p hp => ?_⟩
  · have h1 := h.1
    clear h
    induction m with
    | nil => simp [Memory.insert]
    | cons q m ih =>
      obtain ⟨k, d⟩ := q
      have h2 := List.pairwise_cons.1 h1
      simp only [Memory.insert]
      split
      · rename_i hlt
        refine List.pairwise_cons.2 ⟨fun p hp => ?_, h1⟩
        rcases List.mem_cons.1 hp with hp | hp
        · simpa [hp] using hlt
        · exact Nat.lt_trans hlt (h2.1 p hp)
      · split
        · rename_i heq; subst heq
          exact List.pairwise_cons.2 ⟨h2.1, h2.2⟩
        · refine List.pairwise_cons.2 ⟨fun p hp => ?_, ih h2.2⟩
          rcases Memory.mem_insert hp with hp | hp
          · subst hp; simp only; omega
          · exact h2.1 p hp
  · rcases Memory.mem_insert hp with hp | hp
    · simpa [hp] using hc
    · exact h.2 p hp

/-- A write keeps the canonical form. -/
theorem Memory.wf_write {m : Memory} (a : Nat) (c : Cell) (h : m.wf) : (m.write a c).wf := by
  unfold Memory.write
  split
  · exact Memory.wf_clear a h
  · rename_i hc; exact Memory.wf_insert a h hc

/-! ## The memory a launch fills -/

theorem Memory.mem_ofCells {k : Nat} {cs : List Cell} {p : Nat × Cell}
    (h : p ∈ Memory.ofCells k cs) : k ≤ p.1 ∧ p.1 < k + cs.length ∧ p.2 ≠ zeroCell := by
  induction cs generalizing k with
  | nil => simp [Memory.ofCells] at h
  | cons c cs ih =>
    simp only [Memory.ofCells] at h
    split at h
    · have := ih h
      simp only [List.length_cons]
      exact ⟨by omega, by omega, this.2.2⟩
    · rename_i hc
      rcases List.mem_cons.1 h with h | h
      · subst h; simp [hc]
      · have := ih h
        simp only [List.length_cons]
        exact ⟨by omega, by omega, this.2.2⟩

/-- The memory a launch fills is in canonical form. -/
theorem Memory.wf_ofCells (k : Nat) (cs : List Cell) : (Memory.ofCells k cs).wf := by
  refine ⟨?_, fun p hp => (Memory.mem_ofCells hp).2.2⟩
  induction cs generalizing k with
  | nil => simp [Memory.ofCells]
  | cons c cs ih =>
    simp only [Memory.ofCells]
    split
    · exact ih _
    · refine List.pairwise_cons.2 ⟨fun p hp => ?_, ih _⟩
      have := (Memory.mem_ofCells hp).1
      simp only; omega

/-- What a launch puts in each cell: the image's cell inside the image, the zero fill above it. -/
theorem Memory.read_ofCells (k : Nat) (cs : List Cell) (a : Nat) :
    (Memory.ofCells k cs).read (k + a) = cs.getD a zeroCell := by
  induction cs generalizing k a with
  | nil => simp [Memory.ofCells, Memory.read]
  | cons c cs ih =>
    have low : ∀ m : Memory, (∀ p ∈ m, k + 1 ≤ p.1) → m.read k = zeroCell := by
      intro m
      induction m with
      | nil => simp [Memory.read]
      | cons q m ihm =>
        intro hm
        have h1 := hm q (by simp)
        have : q.1 ≠ k := by omega
        simp [Memory.read, this, ihm fun p hp => hm p (List.mem_cons_of_mem _ hp)]
    have below := low (Memory.ofCells (k + 1) cs) fun p hp => (Memory.mem_ofCells hp).1
    cases a with
    | zero =>
      simp only [Memory.ofCells]
      split
      · rename_i hc; simpa [hc] using below
      · simp [Memory.read]
    | succ a =>
      have e : k + (a + 1) = k + 1 + a := by omega
      simp only [Memory.ofCells, e]
      split
      · simpa using ih (k + 1) a
      · have : k ≠ k + 1 + a := by omega
        simpa [Memory.read, this] using ih (k + 1) a

/-- The reset memory is in canonical form. -/
theorem State.reset_memory_wf : State.reset.mem.wf := by decide

end Sys2Proof.Machine
end

