-- ==== Sys2Proof/Laws/Launch.lean ====
section
/-! SUPPORT. What the loader and the launch can do, said once: an image is accepted exactly when it is
the image of the cells that are loaded, and a refusal has the cause its name says. -/

namespace Sys2Proof.Machine

/-- The image operand a loaded operand came from. -/
def operandOf (w : Word) : ImageOperand := .int w.toInt

/-- The image cell a loaded cell came from. -/
def imageOf : Cell → ImageCell
  | .data w => .data w.toInt
  | .instr (.record r) => .instr r.opcode (r.operands.map operandOf)
  | .instr (.word w) => .word w

theorem isInt32_toInt (w : Word) : IsInt32 w.toInt := by
  have h1 := BitVec.toInt_lt (x := w)
  have h2 := BitVec.le_toInt (x := w)
  norm_num at h1 h2
  exact ⟨by omega, by omega⟩

theorem loadInt_eq_ok_iff {v : Int} {w : Word} : loadInt v = .ok w ↔ v = w.toInt := by
  unfold loadInt
  constructor
  · intro h
    split at h
    · rename_i hv
      injection h with h
      subst h
      simp only [wrap32, BitVec.toInt_ofInt, Int.bmod_def]
      split <;> omega
    · cases h
  · rintro rfl
    rw [if_pos (isInt32_toInt w), wrap32, BitVec.ofInt_toInt]

theorem loadInt_eq_error {v : Int} {e : LoadRefusal} (h : loadInt v = .error e) :
    e = .integerOutOfRange v ∧ ¬ IsInt32 v := by
  unfold loadInt at h
  split at h
  · cases h
  · rename_i hv
    injection h with h
    exact ⟨h.symm, hv⟩

theorem loadOperands_eq_ok_iff {os : List ImageOperand} {ws : List Word} :
    loadOperands os = .ok ws ↔ os = ws.map operandOf := by
  induction os generalizing ws with
  | nil => cases ws <;> simp [loadOperands]
  | cons o os ih =>
    cases o with
    | symbol name => cases ws <;> simp [loadOperands, operandOf]
    | int v =>
      simp only [loadOperands]
      cases hv : loadInt v with
      | error e =>
        have hne : ∀ w : Word, v ≠ w.toInt := fun w h => by
          rw [loadInt_eq_ok_iff.2 h] at hv; cases hv
        cases ws <;> simp [operandOf, hne]
      | ok w =>
        have hw := loadInt_eq_ok_iff.1 hv
        cases ho : loadOperands os with
        | error e =>
          have hne : ∀ us : List Word, os ≠ us.map operandOf := fun us h => by
            rw [ih.2 h] at ho; cases ho
          cases ws <;> simp [hne]
        | ok us =>
          have hu := ih.1 ho
          cases ws with
          | nil => simp
          | cons w' ws' =>
            subst hw hu
            simp only [Except.ok.injEq, List.cons.injEq, List.map_cons, operandOf,
              ImageOperand.int.injEq, BitVec.toInt_inj]
            rw [show List.map operandOf us = List.map operandOf ws' ↔ us = ws' from
              List.map_inj_right fun a b h => by simpa [operandOf, BitVec.toInt_inj] using h]

theorem loadOperands_eq_error {os : List ImageOperand} {e : LoadRefusal}
    (h : loadOperands os = .error e) :
    (∃ v, e = .integerOutOfRange v ∧ ¬ IsInt32 v ∧ ImageOperand.int v ∈ os) ∨
    (∃ name, e = .notAnInteger name ∧ ImageOperand.symbol name ∈ os) := by
  induction os with
  | nil => cases h
  | cons o os ih =>
    cases o with
    | symbol name =>
      injection h with h
      exact .inr ⟨name, h.symm, List.mem_cons_self⟩
    | int v =>
      simp only [loadOperands] at h
      split at h
      · rename_i f hv
        injection h with h
        subst h
        exact .inl ⟨v, (loadInt_eq_error hv).1, (loadInt_eq_error hv).2, List.mem_cons_self⟩
      · split at h
        · rename_i f hf
          injection h with h
          subst h
          rcases ih hf with ⟨v, h1, h2, h3⟩ | ⟨n, h1, h2⟩
          · exact .inl ⟨v, h1, h2, List.mem_cons_of_mem _ h3⟩
          · exact .inr ⟨n, h1, List.mem_cons_of_mem _ h2⟩
        · cases h

/-- A cell is loaded as `d` exactly when it is the image of `d`. -/
theorem loadCell_eq_ok_iff {c : ImageCell} {d : Cell} : loadCell c = .ok d ↔ c = imageOf d := by
  cases c with
  | data v =>
    simp only [loadCell]
    cases hv : loadInt v with
    | error e =>
      have hne : ∀ w : Word, v ≠ w.toInt := fun w h => by
        rw [loadInt_eq_ok_iff.2 h] at hv; cases hv
      rcases d with w | (r | w) <;> simp [imageOf, hne]
    | ok w =>
      have := loadInt_eq_ok_iff.1 hv
      subst this
      rcases d with w' | (r | w') <;> simp [imageOf, BitVec.toInt_inj]
  | instr op os =>
    simp only [loadCell]
    cases ho : loadOperands os with
    | error e =>
      have hne : ∀ us : List Word, os ≠ us.map operandOf := fun us h => by
        rw [loadOperands_eq_ok_iff.2 h] at ho; cases ho
      rcases d with w | (r | w) <;> simp [imageOf, hne]
    | ok us =>
      have hu := ho
      rw [loadOperands_eq_ok_iff] at hu
      rcases d with w | (r | w)
      · simp [imageOf]
      · obtain ⟨op', ws⟩ := r
        simp only [Except.ok.injEq, Cell.instr.injEq, Payload.record.injEq, Record.mk.injEq, imageOf,
          ImageCell.instr.injEq]
        rw [← loadOperands_eq_ok_iff, ho, Except.ok.injEq]
      · simp [imageOf]
  | word w => rcases d with w' | (r | w') <;> simp [loadCell, imageOf]

theorem loadCell_eq_error {c : ImageCell} {e : LoadRefusal} (h : loadCell c = .error e) :
    (∃ v, e = .integerOutOfRange v ∧ ¬ IsInt32 v ∧
      (c = .data v ∨ ∃ op os, c = .instr op os ∧ ImageOperand.int v ∈ os)) ∨
    (∃ name op os, e = .notAnInteger name ∧ c = .instr op os ∧ ImageOperand.symbol name ∈ os) := by
  cases c with
  | data v =>
    simp only [loadCell] at h
    split at h
    · rename_i f hv
      injection h with h
      subst h
      exact .inl ⟨v, (loadInt_eq_error hv).1, (loadInt_eq_error hv).2, .inl rfl⟩
    · cases h
  | instr op os =>
    simp only [loadCell] at h
    split at h
    · rename_i f hf
      injection h with h
      subst h
      rcases loadOperands_eq_error hf with ⟨v, h1, h2, h3⟩ | ⟨n, h1, h2⟩
      · exact .inl ⟨v, h1, h2, .inr ⟨op, os, rfl, h3⟩⟩
      · exact .inr ⟨n, op, os, h1, rfl, h2⟩
    · cases h
  | word w => cases h

/-- The loader keeps the image: it is accepted exactly when it is the image of the cells loaded. -/
theorem loadCells_eq_ok_iff {image : List ImageCell} {cells : List Cell} :
    loadCells image = .ok cells ↔ image = cells.map imageOf := by
  induction image generalizing cells with
  | nil => cases cells <;> simp [loadCells]
  | cons c image ih =>
    simp only [loadCells]
    cases hc : loadCell c with
    | error e =>
      have hne : ∀ d, c ≠ imageOf d := fun d h => by
        rw [loadCell_eq_ok_iff.2 h] at hc; cases hc
      cases cells <;> simp [hne]
    | ok d =>
      cases hr : loadCells image with
      | error e =>
        have hne : ∀ ds : List Cell, image ≠ ds.map imageOf := fun ds h => by
          rw [ih.2 h] at hr; cases hr
        cases cells <;> simp [hne]
      | ok ds =>
        cases cells with
        | nil => simp
        | cons d' ds' =>
          simp only [Except.ok.injEq, List.cons.injEq, List.map_cons]
          rw [← ih, hr, ← loadCell_eq_ok_iff, hc, Except.ok.injEq, Except.ok.injEq]

theorem loadCells_eq_error {image : List ImageCell} {e : LoadRefusal}
    (h : loadCells image = .error e) : ∃ c ∈ image, loadCell c = .error e := by
  induction image with
  | nil => cases h
  | cons c image ih =>
    simp only [loadCells] at h
    split at h
    · rename_i f hf
      injection h with h
      subst h
      exact ⟨c, List.mem_cons_self, hf⟩
    · split at h
      · rename_i f hf
        injection h with h
        subst h
        obtain ⟨d, hd, he⟩ := ih hf
        exact ⟨d, List.mem_cons_of_mem _ hd, he⟩
      · cases h

/-- A launch that is not refused: the image is short enough and is the image of the cells loaded. -/
theorem launch_eq_ok {image : List ImageCell} {p : Params} {regs : Vector Word 4} {z : Bool} {s : State}
    (h : launch image p regs z = .ok s) :
    image.length < p.memSize ∧
      ∃ cells, image = cells.map imageOf ∧ s = launchState cells p regs z := by
  unfold launch at h
  split at h
  · cases h
  · rename_i hl
    split at h
    · cases h
    · split at h
      · cases h
      · rename_i cells hc
        split at h
        · cases h
        · injection h with h
          exact ⟨by omega, cells, loadCells_eq_ok_iff.1 hc, h.symm⟩

theorem launchState_mem_read (cells : List Cell) (p : Params) (regs : Vector Word 4) (z : Bool)
    (a : Nat) : (launchState cells p regs z).mem.read a = cells.getD a zeroCell := by
  have h := Memory.read_ofCells 0 cells a
  rwa [Nat.zero_add] at h

end Sys2Proof.Machine
end

