-- ==== Sys2Proof/Laws/Ops.lean ====
section
/-! SUPPORT. One lemma per shared operation that says everything it can do: register operands, the ALU,
memory accesses, the endings of the instruction families, the fetch and the step. -/

namespace Sys2Proof.Machine

/-! ## Register operands -/

theorem isRegisterIndex_gprOperand (i : Fin 4) : IsRegisterIndex (gprOperand i) := by
  revert i; decide

theorem regidx_gprOperand (i : Fin 4) : regidx (gprOperand i) = .ok i := by
  revert i; decide

/-- A legal register operand is the word of one of the four registers. -/
theorem eq_gprOperand_of_regidx {w : Word} {i : Fin 4} (h : regidx w = .ok i) :
    w = gprOperand i := by
  unfold regidx at h
  split at h
  · rename_i hw
    injection h with h
    subst h
    apply BitVec.eq_of_toInt_eq
    have e : (w.toInt.toNat : Int) = w.toInt := by omega
    simp only [gprOperand, BitVec.toInt_ofNat']
    rw [Int.bmod_def]
    omega
  · cases h

theorem regidx_eq_ok_iff {w : Word} {i : Fin 4} : regidx w = .ok i ↔ w = gprOperand i :=
  ⟨eq_gprOperand_of_regidx, fun h => h ▸ regidx_gprOperand i⟩

theorem regidx_of_not {w : Word} (h : ¬ IsRegisterIndex w) :
    regidx w = .error (.registerIndexOutOfBounds w.toInt) := by
  simp only [regidx, dif_neg h]

/-- A word that is a legal register index names one of the four registers. -/
theorem exists_gprOperand {w : Word} (h : IsRegisterIndex w) : ∃ i, w = gprOperand i := by
  have : regidx w = .ok ⟨w.toInt.toNat, by omega⟩ := by simp only [regidx, dif_pos h]
  exact ⟨_, eq_gprOperand_of_regidx this⟩

@[simp] theorem withRegister_gprOperand (i : Fin 4) (k : Fin 4 → Result) :
    withRegister (gprOperand i) k = k i := by
  simp [withRegister, regidx_gprOperand]

theorem withRegister_of_not {w : Word} (k : Fin 4 → Result) (h : ¬ IsRegisterIndex w) :
    withRegister w k = .fault (.registerIndexOutOfBounds w.toInt) := by
  simp [withRegister, regidx_of_not h, raise]

/-- A register operand that lets the instruction go on names a register. -/
theorem withRegister_next {w : Word} {k : Fin 4 → Result} {t : State}
    (h : withRegister w k = .next t) : ∃ i, w = gprOperand i ∧ k i = .next t := by
  unfold withRegister at h
  split at h
  · cases h
  · rename_i i hi
    exact ⟨i, eq_gprOperand_of_regidx hi, h⟩

/-- Checking a register operand refuses only where what follows refuses. -/
theorem withRegister_refused {w : Word} {k : Fin 4 → Result} {r : Refusal}
    (h : withRegister w k = .refused r) : ∃ i, w = gprOperand i ∧ k i = .refused r := by
  unfold withRegister at h
  split at h
  · cases h
  · rename_i i hi
    exact ⟨i, eq_gprOperand_of_regidx hi, h⟩

/-! ## The ALU -/

/-- Two integers congruent modulo 2^32 wrap to the same word. -/
theorem wrap32_eq_of_emod {a b : Int} (h : a % 4294967296 = b % 4294967296) :
    wrap32 a = wrap32 b := by
  apply BitVec.eq_of_toInt_eq
  simp only [wrap32, BitVec.toInt_ofInt, Int.bmod_def]
  norm_num
  rw [h]

theorem wrap32_toInt (v : Word) : wrap32 v.toInt = v := BitVec.ofInt_toInt

/-- An int32 is its own wrapped value. -/
theorem toInt_wrap32 {v : Int} (h : IsInt32 v) : (wrap32 v).toInt = v := by
  simp only [wrap32, BitVec.toInt_ofInt, Int.bmod_def]
  norm_num
  obtain ⟨h1, h2⟩ := h
  omega

/-- Wrapping an addend first changes nothing modulo 2^32. -/
theorem wrap32_add_wrap32 (a b : Int) : wrap32 (a + (wrap32 b).toInt) = wrap32 (a + b) := by
  apply wrap32_eq_of_emod
  simp only [wrap32, BitVec.toInt_ofInt]
  norm_num [Int.bmod_def]
  omega

theorem wrap32_wrap32_add (a b : Int) : wrap32 ((wrap32 a).toInt + b) = wrap32 (a + b) := by
  rw [Int.add_comm, wrap32_add_wrap32, Int.add_comm]

theorem toInt_not (v : Word) : (~~~v).toInt = -v.toInt - 1 := by
  have := BitVec.toInt_not (x := v)
  rw [this, Int.bmod_def]
  have h := BitVec.toInt_eq_toNat_cond v
  have hv := v.isLt
  norm_num
  split at h <;> omega

/-- The negating transform (spec/15_datapath_control.md R32). -/
theorem neg_apply (v : Word) : Transform.neg.apply v = wrap32 (-v.toInt) := by
  simp only [Transform.apply, toInt_not]
  congr 1; omega

/-- The add family with a negated right input subtracts (spec/40_arithmetic.md R102). -/
theorem aluResult_sub (c : ModConvention) (l r : Word) :
    aluResult c l r .pass .neg .addFamily = .ok (wrap32 (l.toInt - r.toInt)) := by
  simp only [aluResult, neg_apply]
  simp only [Transform.apply, wrap32_add_wrap32, Int.sub_eq_add_neg]

theorem aluResult_add (c : ModConvention) (l r : Word) :
    aluResult c l r .pass .pass .addFamily = .ok (wrap32 (l.toInt + r.toInt)) := rfl

theorem aluResult_inc (c : ModConvention) (l : Word) :
    aluResult c l 0 .inc .pass .addFamily = .ok (wrap32 (l.toInt + 1)) := by
  have z : (0 : Word).toInt = 0 := rfl
  simp only [aluResult, Transform.apply, z, Int.add_zero, wrap32_toInt]

theorem aluResult_pass (c : ModConvention) (l : Word) :
    aluResult c l 0 .pass .pass .addFamily = .ok l := by
  have z : (0 : Word).toInt = 0 := rfl
  simp only [aluResult, Transform.apply, z, Int.add_zero, wrap32_toInt]

theorem aluResult_mod (c : ModConvention) (l r : Word) :
    aluResult c l r .pass .pass .modulo = modWord c l r := rfl

theorem modWord_zero (c : ModConvention) (a : Word) :
    modWord c a 0 = .error .divisionByZero := rfl

theorem modWord_of_ne (c : ModConvention) (a : Word) {b : Word} (h : b ≠ 0) :
    modWord c a b = .ok (wrap32 (remainder c a.toInt b.toInt)) := if_neg h

/-- A remainder that is answered has a divisor that is not zero. -/
theorem modWord_eq_ok {c : ModConvention} {a b v : Word} (h : modWord c a b = .ok v) :
    b ≠ 0 ∧ v = wrap32 (remainder c a.toInt b.toInt) := by
  unfold modWord at h
  split at h
  · cases h
  · rename_i hb
    injection h with h
    exact ⟨hb, h.symm⟩

/-- The remainder of each convention under its library name (spec/40_arithmetic.md R107). -/
theorem remainder_eq (c : ModConvention) (a b : Int) :
    remainder c a b = match c with
      | .floored => a.fmod b
      | .truncated => a.tmod b
      | .euclidean => a.emod b := by
  cases c
  · have := Int.mul_fdiv_add_fmod a b
    simp only [remainder]; omega
  · have := Int.mul_tdiv_add_tmod a b
    simp only [remainder]; omega
  · have h : (0 : Int) ≤ (b.natAbs : Int) := by omega
    have h2 := Int.mul_ediv_add_emod a (b.natAbs : Int)
    have h3 : a.emod b = a % (b.natAbs : Int) := by
      show a % b = _
      rw [← Int.emod_abs, Int.abs_eq_natAbs]
    simp only [remainder]
    rw [Int.fdiv_eq_ediv_of_nonneg _ h, h3]
    omega

/-- The flag of a result, as the spec writes it: `result = 0` (spec/40_arithmetic.md R108). -/
theorem zeroFlag_eq (v : Word) : zeroFlag v = decide (v = 0) := by
  simp only [zeroFlag, beq_eq_decide]

/-- Everything an ALU evaluation latched into a register can do. -/
theorem State.aluToReg_next {s t : State} {op : Opcode} {l r : Word} {tl tr : Transform}
    {aop : AluOp} {d : Fin 4} (h : s.aluToReg op l r tl tr aop d = .next t) :
    ∃ v, aluResult s.params.modConvention l r tl tr aop = .ok v ∧
      t = (({ s with z := zeroFlag v } : State).setReg d v).tick (s.execTicks op) := by
  unfold State.aluToReg State.alu at h
  split at h
  · cases h
  · rename_i v u hv
    split at hv
    · cases hv
    · rename_i w hw
      injection hv with hv
      injection hv with h1 h2
      subst h1
      subst h2
      injection h with h
      exact ⟨_, hw, h.symm⟩

theorem State.aluToReg_of_ok {s : State} {op : Opcode} {l r : Word} {tl tr : Transform}
    {aop : AluOp} {d : Fin 4} {v : Word}
    (h : aluResult s.params.modConvention l r tl tr aop = .ok v) :
    s.aluToReg op l r tl tr aop d =
      .next ((({ s with z := zeroFlag v } : State).setReg d v).tick (s.execTicks op)) := by
  simp [State.aluToReg, State.alu, h, flagAfter]

theorem State.aluToReg_of_error {s : State} {op : Opcode} {l r : Word} {tl tr : Transform}
    {aop : AluOp} {d : Fin 4} {f : Fault}
    (h : aluResult s.params.modConvention l r tl tr aop = .error f) :
    s.aluToReg op l r tl tr aop d = .fault f := by
  simp [State.aluToReg, State.alu, h, raise]

theorem State.aluToReg_not_refused {s : State} {op : Opcode} {l r : Word} {tl tr : Transform}
    {aop : AluOp} {d : Fin 4} {x : Refusal} : s.aluToReg op l r tl tr aop d ≠ .refused x := by
  unfold State.aluToReg raise
  split <;> simp

/-! ## Memory accesses -/

theorem State.cellAddress_eq_ok_iff {s : State} {a : Int} {k : Nat} :
    s.cellAddress a = .ok k ↔ 0 ≤ a ∧ a < s.params.memSize ∧ k = a.toNat := by
  unfold State.cellAddress
  split
  · rename_i h
    constructor
    · intro e; injection e with e; exact ⟨h.1, h.2, e.symm⟩
    · intro e; rw [e.2.2]
  · rename_i h
    constructor
    · intro e; cases e
    · intro e; exact absurd ⟨e.1, e.2.1⟩ h

theorem State.cellAddress_of_inside {s : State} {a : Int} (h0 : 0 ≤ a)
    (h1 : a < s.params.memSize) : s.cellAddress a = .ok a.toNat :=
  State.cellAddress_eq_ok_iff.2 ⟨h0, h1, rfl⟩

theorem State.cellAddress_of_outside {s : State} {a : Int}
    (h : ¬ (0 ≤ a ∧ a < s.params.memSize)) :
    s.cellAddress a = .error (.memoryOutOfBounds a) := by
  simp only [State.cellAddress, if_neg h]

theorem State.memRead_of_inside {s : State} {a : Int} (h0 : 0 ≤ a)
    (h1 : a < s.params.memSize) : s.memRead a = .ok (s.mem.read a.toNat) := by
  simp [State.memRead, State.cellAddress_of_inside h0 h1]

theorem State.memRead_of_outside {s : State} {a : Int}
    (h : ¬ (0 ≤ a ∧ a < s.params.memSize)) : s.memRead a = .error (.memoryOutOfBounds a) := by
  simp only [State.memRead, State.cellAddress_of_outside h]

theorem State.memRead_eq_ok {s : State} {a : Int} {c : Cell} (h : s.memRead a = .ok c) :
    0 ≤ a ∧ a < s.params.memSize ∧ c = s.mem.read a.toNat := by
  by_cases hin : 0 ≤ a ∧ a < s.params.memSize
  · rw [State.memRead_of_inside hin.1 hin.2] at h
    injection h with h
    exact ⟨hin.1, hin.2, h.symm⟩
  · rw [State.memRead_of_outside hin] at h
    cases h

theorem State.memWrite_eq_ok {s t : State} {a : Int} {v : Word} (h : s.memWrite a v = .ok t) :
    0 ≤ a ∧ a < s.params.memSize ∧ t = { s with mem := s.mem.write a.toNat (.data v) } := by
  unfold State.memWrite at h
  split at h
  · cases h
  · rename_i k hk
    obtain ⟨h0, h1, rfl⟩ := State.cellAddress_eq_ok_iff.1 hk
    injection h with h
    exact ⟨h0, h1, h.symm⟩

theorem State.memWrite_of_inside {s : State} {a : Int} (v : Word) (h0 : 0 ≤ a)
    (h1 : a < s.params.memSize) :
    s.memWrite a v = .ok { s with mem := s.mem.write a.toNat (.data v) } := by
  simp [State.memWrite, State.cellAddress_of_inside h0 h1]

theorem State.memWrite_of_outside {s : State} {a : Int} (v : Word)
    (h : ¬ (0 ≤ a ∧ a < s.params.memSize)) :
    s.memWrite a v = .error (.memoryOutOfBounds a) := by
  simp only [State.memWrite, State.cellAddress_of_outside h]

theorem State.loadData_eq_ok {s : State} {a : Int} {v : Word} (h : s.loadData a = .ok v) :
    0 ≤ a ∧ a < s.params.memSize ∧ s.mem.read a.toNat = .data v := by
  unfold State.loadData at h
  split at h
  · cases h
  · cases h
  · rename_i w hr
    injection h with h
    subst h
    obtain ⟨h0, h1, e⟩ := State.memRead_eq_ok hr
    exact ⟨h0, h1, e.symm⟩

theorem State.loadData_of_data {s : State} {a : Int} {v : Word} (h0 : 0 ≤ a)
    (h1 : a < s.params.memSize) (h : s.mem.read a.toNat = .data v) : s.loadData a = .ok v := by
  simp [State.loadData, State.memRead_of_inside h0 h1, h]

theorem State.loadData_of_instr {s : State} {a : Int} {p : Payload} (h0 : 0 ≤ a)
    (h1 : a < s.params.memSize) (h : s.mem.read a.toNat = .instr p) :
    s.loadData a = .error (.notADataCell a) := by
  simp [State.loadData, State.memRead_of_inside h0 h1, h]

theorem State.loadData_of_outside {s : State} {a : Int}
    (h : ¬ (0 ≤ a ∧ a < s.params.memSize)) : s.loadData a = .error (.memoryOutOfBounds a) := by
  simp only [State.loadData, State.memRead_of_outside h]

/-! ## What each instruction can do when it completes -/

theorem execAdd_next {r1 r2 rres : Word} {s t : State} (h : execAdd r1 r2 rres s = .next t) :
    ∃ a b d, r1 = gprOperand a ∧ r2 = gprOperand b ∧ rres = gprOperand d ∧
      s.aluToReg .add (s.reg a) (s.reg b) .pass .pass .addFamily d = .next t := by
  obtain ⟨a, ha, h⟩ := withRegister_next h
  obtain ⟨b, hb, h⟩ := withRegister_next h
  obtain ⟨d, hd, h⟩ := withRegister_next h
  exact ⟨a, b, d, ha, hb, hd, h⟩

theorem execSub_next {r1 r2 rres : Word} {s t : State} (h : execSub r1 r2 rres s = .next t) :
    ∃ a b d, r1 = gprOperand a ∧ r2 = gprOperand b ∧ rres = gprOperand d ∧
      s.aluToReg .sub (s.reg a) (s.reg b) .pass .neg .addFamily d = .next t := by
  obtain ⟨a, ha, h⟩ := withRegister_next h
  obtain ⟨b, hb, h⟩ := withRegister_next h
  obtain ⟨d, hd, h⟩ := withRegister_next h
  exact ⟨a, b, d, ha, hb, hd, h⟩

theorem execMod_next {r1 r2 rres : Word} {s t : State} (h : execMod r1 r2 rres s = .next t) :
    ∃ a b d, r1 = gprOperand a ∧ r2 = gprOperand b ∧ rres = gprOperand d ∧
      s.aluToReg .mod (s.reg a) (s.reg b) .pass .pass .modulo d = .next t := by
  obtain ⟨a, ha, h⟩ := withRegister_next h
  obtain ⟨b, hb, h⟩ := withRegister_next h
  obtain ⟨d, hd, h⟩ := withRegister_next h
  exact ⟨a, b, d, ha, hb, hd, h⟩

theorem execInc_next {r rres : Word} {s t : State} (h : execInc r rres s = .next t) :
    ∃ a d, r = gprOperand a ∧ rres = gprOperand d ∧
      s.aluToReg .inc (s.reg a) 0 .inc .pass .addFamily d = .next t := by
  obtain ⟨a, ha, h⟩ := withRegister_next h
  obtain ⟨d, hd, h⟩ := withRegister_next h
  exact ⟨a, d, ha, hd, h⟩

theorem execDec_next {r rres : Word} {s t : State} (h : execDec r rres s = .next t) :
    ∃ a d, r = gprOperand a ∧ rres = gprOperand d ∧
      s.aluToReg .dec (s.reg a) 1 .pass .neg .addFamily d = .next t := by
  obtain ⟨a, ha, h⟩ := withRegister_next h
  obtain ⟨d, hd, h⟩ := withRegister_next h
  exact ⟨a, d, ha, hd, h⟩

theorem execLd_next {addr rres : Word} {s t : State} (h : execLd addr rres s = .next t) :
    ∃ d v, rres = gprOperand d ∧ s.loadData addr.toInt = .ok v ∧ t = s.moveToReg .ld v d := by
  obtain ⟨d, hd, h⟩ := withRegister_next h
  dsimp only [effectiveAddress] at h
  split at h
  · cases h
  · rename_i v hv
    injection h with h
    exact ⟨d, v, hd, hv, h.symm⟩

theorem execSt_next {r addr : Word} {s t : State} (h : execSt r addr s = .next t) :
    ∃ a u, r = gprOperand a ∧ s.memWrite addr.toInt (s.reg a) = .ok u ∧
      t = (u.drawZ .st (s.reg a)).tick (s.execTicks .st) := by
  obtain ⟨a, ha, h⟩ := withRegister_next h
  dsimp only [effectiveAddress] at h
  split at h
  · cases h
  · rename_i u hu
    injection h with h
    exact ⟨a, u, ha, hu, h.symm⟩

theorem execMv_next {r1 rres : Word} {s t : State} (h : execMv r1 rres s = .next t) :
    ∃ a d, r1 = gprOperand a ∧ rres = gprOperand d ∧ t = s.moveToReg .mv (s.reg a) d := by
  obtain ⟨a, ha, h⟩ := withRegister_next h
  obtain ⟨d, hd, h⟩ := withRegister_next h
  injection h with h
  exact ⟨a, d, ha, hd, h.symm⟩

/-! ## The fetch, the decode and the step -/

/-- A fetch that completes: the cell at pc holds an instruction, and the state is the fetched one. -/
theorem State.fetch_eq_ok_iff {s t : State} {p : Payload} :
    s.fetch = .ok (p, t) ↔ 0 ≤ s.pc.toInt ∧ s.pc.toInt < s.params.memSize ∧
      s.mem.read s.pc.toInt.toNat = .instr p ∧ t = s.fetched p := by
  by_cases hin : 0 ≤ s.pc.toInt ∧ s.pc.toInt < s.params.memSize
  · simp only [State.fetch, State.memRead_of_inside hin.1 hin.2, State.alu, aluResult_inc,
      flagAfter]
    cases hc : s.mem.read s.pc.toInt.toNat with
    | data v => simp
    | instr q =>
      simp only [Except.ok.injEq, Prod.mk.injEq, hin, true_and, Cell.instr.injEq]
      constructor
      · rintro ⟨rfl, rfl⟩; exact ⟨rfl, rfl⟩
      · rintro ⟨rfl, rfl⟩; exact ⟨rfl, rfl⟩
  · simp only [State.fetch, State.memRead_of_outside hin]
    constructor
    · intro h; cases h
    · intro h; exact absurd ⟨h.1, h.2.1⟩ hin

/-- A fetch outside memory (spec/20_memory.md R62). -/
theorem State.fetch_of_outside {s : State}
    (h : ¬ (0 ≤ s.pc.toInt ∧ s.pc.toInt < s.params.memSize)) :
    s.fetch = .error (.memoryOutOfBounds s.pc.toInt) := by
  simp only [State.fetch, State.memRead_of_outside h]

/-- A fetch of a data cell (spec/20_memory.md R65). -/
theorem State.fetch_of_data {s : State} {v : Word} (h0 : 0 ≤ s.pc.toInt)
    (h1 : s.pc.toInt < s.params.memSize) (h : s.mem.read s.pc.toInt.toNat = .data v) :
    s.fetch = .error (.notAnInstruction s.pc.toInt) := by
  simp only [State.fetch, State.memRead_of_inside h0 h1, State.alu, aluResult_inc, h]

theorem decodeLatched_eq_ok_iff {p : Payload} {i : Instr} :
    decodeLatched p = .ok i ↔ decodePayload p = .ok i := by
  unfold decodeLatched
  cases decodePayload p <;> simp

/-- Everything a step that answers a next state has done. -/
theorem step_next {s t : State} (h : step s = .next t) :
    ∃ p i u, s.Fetches p ∧ decodePayload p = .ok i ∧ exec i (s.fetched p) = .next u ∧
      t = u.retire := by
  unfold step at h
  split at h
  · rename_i hrun
    unfold cycle at h
    split at h
    · cases h
    · rename_i hc
      split at h
      · cases h
      · rename_i p u hf
        obtain ⟨h0, h1, hcell, rfl⟩ := State.fetch_eq_ok_iff.1 hf
        split at h
        · cases h
        · rename_i i hi
          have hlt : s.instrCount < s.params.stepLimit := by
            simp [State.ceilingReached] at hc; omega
          cases he : exec i (s.fetched p) with
          | next u =>
            rw [he] at h
            simp only [retireResult] at h
            injection h with h
            exact ⟨p, i, u, ⟨hrun, hlt, h0, h1, hcell⟩, decodeLatched_eq_ok_iff.1 hi, he, h.symm⟩
          | fault f => rw [he] at h; cases h
          | refused r => rw [he] at h; cases h
  · cases h
  · cases h

end Sys2Proof.Machine
end

