-- ==== Sys2Proof/Laws/Micro.lean ====
section
/-! SUPPORT. What each row of the reference micro-sequences does, said once over the named operations. -/

namespace Sys2Proof.Machine

/-- The multiplexer's literal is the operand of the instruction in the latch. -/
theorem State.literal_of_latch {s : State} {p : Payload} {i : Instr} (h : s.ir = some p)
    (hd : decodePayload p = .ok i) (k : Nat) : s.literal k = i.operands.getD k 0 := by
  simp [State.literal, h, hd]

theorem State.bus_gprSource (s : State) (i : Fin 4) : s.bus (gprSource i) = s.reg i := rfl

/-- An ALU row is the shared ending of the arithmetic instructions. -/
theorem State.microStep_aluRow (s : State) (op : Opcode) (l r : BusSource) (tl tr : Transform)
    (aop : AluOp) (d : Fin 4) :
    (match s.microStep (aluRow l r tl tr aop d (s.execTicks op)) with
      | .error f => raise f
      | .ok t => .next t) = s.aluToReg op (s.bus l) (s.bus r) tl tr aop d := by
  unfold State.aluToReg State.alu State.microStep State.microValue State.muxOut aluRow
  dsimp only
  generalize aluResult s.params.modConvention (s.bus l) (s.bus r) tl tr aop = q
  cases q <;> rfl

/-- The target row is the transfer of control, with the row's ticks. -/
theorem State.microStep_targetRow {s : State} {target : Word} (op : Opcode) (k : Nat)
    (h : s.literal 0 = target) :
    s.microStep (targetRow op k) = .ok ((s.jumpTo op target).tick k) := by
  unfold State.microStep State.microValue State.muxOut targetRow
  dsimp only
  rw [h, show State.bus s .undriven = 0 from rfl, aluResult_pass]
  rfl

/-- The empty row of BE and BNE costs its tick and does nothing else. -/
theorem State.microStep_empty (s : State) : s.microStep {} = .ok (s.tick 1) := rfl

/-- The first fetch row: the read at pc, the latch filled, one tick. -/
theorem State.microStep_fetchRead (s : State) :
    s.microStep { left := .reg 4, mem := .read, latch := .ir } =
      match s.memRead s.pc.toInt with
      | .error f => .error f
      | .ok (.data _) => .error (.notAnInstruction s.pc.toInt)
      | .ok (.instr p) => .ok (({ s with ir := some p }).tick 1) := by
  unfold State.microStep State.microValue State.muxOut
  dsimp only
  rw [show State.bus s (.reg 4) = s.pc from rfl]
  cases s.memRead s.pc.toInt with
  | error f => rfl
  | ok c => cases c <;> rfl

/-- The second fetch row: pc incremented with Z kept, one tick. -/
theorem State.microStep_fetchIncrement (s : State) :
    s.microStep { left := .reg 4, tl := .inc, op := some .addFamily, flag := .mode .preservesFlag,
                  latch := .reg 4 } =
      .ok ((s.setPc (wrap32 (s.pc.toInt + 1))).tick 1) := by
  unfold State.microStep State.microValue State.muxOut
  dsimp only
  rw [show State.bus s .undriven = 0 from rfl, show State.bus s (.reg 4) = s.pc from rfl,
    aluResult_inc]
  rfl

end Sys2Proof.Machine
end

