-- ==== Sys2Proof/Laws/PerInstr.lean ====
section
/-! SUPPORT. Statements made instruction by instruction. `RecordForm`: an instruction's record is one
the decoder reads back as that instruction, and its operand count is its opcode's arity
(spec/30_encoding.md R80, R82, R85). -/

namespace Sys2Proof.Laws.RecordForm

/-- The record of an instruction is well formed and decodes to it. -/
def Statement (i : Instr) : Prop :=
  decodeRecord i.toRecord = .ok i ∧ i.toRecord.operands.length = i.opcode.arity

theorem add (r1 r2 rres : Word) : Statement (.add r1 r2 rres) := ⟨rfl, rfl⟩

theorem sub (r1 r2 rres : Word) : Statement (.sub r1 r2 rres) := ⟨rfl, rfl⟩

theorem mod (r1 r2 rres : Word) : Statement (.mod r1 r2 rres) := ⟨rfl, rfl⟩

theorem inc (r rres : Word) : Statement (.inc r rres) := ⟨rfl, rfl⟩

theorem dec (r rres : Word) : Statement (.dec r rres) := ⟨rfl, rfl⟩

theorem ld (addr rres : Word) : Statement (.ld addr rres) := ⟨rfl, rfl⟩

theorem st (r addr : Word) : Statement (.st r addr) := ⟨rfl, rfl⟩

theorem mv (r1 rres : Word) : Statement (.mv r1 rres) := ⟨rfl, rfl⟩

theorem be (target : Word) : Statement (.be target) := ⟨rfl, rfl⟩

theorem bne (target : Word) : Statement (.bne target) := ⟨rfl, rfl⟩

theorem jmp (target : Word) : Statement (.jmp target) := ⟨rfl, rfl⟩

theorem hlt : Statement .hlt := ⟨rfl, rfl⟩

end Sys2Proof.Laws.RecordForm
end

