-- ==== Sys2Proof/Tests/Slice0.lean ====
section
/-! SUPPORT. Tests with the vectors of spec/95_test_vectors.md ("V-..." and the tables of its section 2),
and, for every statement with hypotheses, a witness that meets them. -/

namespace Sys2Proof.Tests

open Sys2Proof.Machine

/-! ## Small states -/

/-- The parameters of the vectors: MEM_SIZE 8, STEP_LIMIT 10000, the spec's defaults. -/
def params : Params := Config.defaults 8 10000

/-- A W32 word as a cell. -/
def packed (w : BitVec 32) : Cell := .instr (.word w)

/-- An instruction's record as a cell. -/
def recorded (i : Instr) : Cell := .instr (.record i.toRecord)

/-- Cell `c` at address 3 and the data cells 5 and 42 at 4 and 7; pc 3; the registers as given. -/
def boxed (c : Cell) (r0 r1 r2 r3 : Int) (z : Bool) : State :=
  { launchState [.data 0, .data 0, .data 0, c, .data 5, .data 0, .data 0, .data 42] params
      #v[wrap32 r0, wrap32 r1, wrap32 r2, wrap32 r3] z with
    x := #v[wrap32 r0, wrap32 r1, wrap32 r2, wrap32 r3, 3] }

/-- `boxed` under another MOD_CONVENTION. -/
def boxedUnder (m : ModConvention) (c : Cell) (a b : Int) : State :=
  { boxed c 0 a b 0 false with params := { params with modConvention := m } }

/-- What a test reads of a next state. -/
def seen {α : Type} (f : State → α) : Result → Option α
  | .next s => some (f s)
  | .fault _ => none
  | .refused _ => none

/-- The fatal condition of a result. -/
def faultOf : Result → Option Fault
  | .next _ => none
  | .fault f => some f
  | .refused _ => none

/-- Whether a result is a next state. -/
def completes (r : Result) : Bool := (seen (fun _ => ()) r).isSome

/-- x[0], Z, pc and the ticks. -/
def arith (s : State) : Int × Bool × Int × Nat :=
  ((s.reg 0).toInt, s.z, s.pc.toInt, s.tickCount)

/-- pc and the ticks: what a transfer leaves that the spec fixes. -/
def control (s : State) : Int × Nat := (s.pc.toInt, s.tickCount)

/-- A result that completes is a next state: the form in which witnesses use it. -/
theorem exists_next_of_completes {r : Result} (h : completes r = true) : ∃ t, r = .next t := by
  cases r with
  | next s => exact ⟨s, rfl⟩
  | fault f => cases h
  | refused q => cases h

/-! ## Well-formedness: an ill-formed term for each check -/

theorem test_wf_accepts : (Instr.add 0 1 3).WellFormed ∧ (Instr.ld (-1) 3).WellFormed := by decide

theorem test_wf_refuses_pc : ¬ (Instr.mv 0 4).WellFormed := by decide

theorem test_wf_refuses_negative : ¬ (Instr.st (-1) 5).WellFormed := by decide

theorem test_packable_refuses_register : ¬ (Instr.inc 16 0).Packable := by decide

theorem test_packable_refuses_address :
    ¬ (Instr.jmp (-5)).Packable ∧ ¬ (Instr.ld 16777216 0).Packable := by decide

theorem test_record_refuses_count : (Record.mk (.known .add) [1, 2]).wellFormed = false := by decide

theorem test_record_refuses_opcode : (Record.mk (.unknown "FOO") [1]).wellFormed = false := by decide

/-! ## Decoding: the words of spec/95_test_vectors.md section 2.8 and of its programs -/

theorem test_decode_arithmetic :
    decodeTableWord 32 0x00000000 = some (.add 0 0 0) ∧
    decodeTableWord 32 0x11200000 = some (.sub 1 2 0) ∧
    decodeTableWord 32 0x20230000 = some (.mod 0 2 3) ∧
    decodeTableWord 32 0x33300000 = some (.inc 3 3) ∧
    decodeTableWord 32 0x41100000 = some (.dec 1 1) := by decide

theorem test_decode_movement :
    decodeTableWord 32 0x51000005 = some (.ld 5 1) ∧
    decodeTableWord 32 0x60000007 = some (.st 0 7) ∧
    decodeTableWord 32 0x73200000 = some (.mv 3 2) := by decide

theorem test_decode_control :
    decodeTableWord 32 0x80000009 = some (.be 9) ∧
    decodeTableWord 32 0x90000004 = some (.bne 4) ∧
    decodeTableWord 32 0xA0000000 = some (.jmp 0) ∧
    decodeTableWord 32 0xB0000000 = some .hlt := by decide

/-- Fields at the top of their range: the index is refused later, not by the decoder. -/
theorem test_decode_wide_fields :
    decodeTableWord 32 0x5FFFFFFF = some (.ld 16777215 15) ∧
    decodeTableWord 32 0x09870000 = some (.add 9 8 7) := by decide

theorem test_decode_rejects_opcode :
    unpack 0xC0000000 = .error (.unknownOpcode (.number 12)) ∧
    unpack 0xD1234567 = .error (.unknownOpcode (.number 13)) ∧
    unpack 0xFFFFFFFF = .error (.unknownOpcode (.number 15)) := ⟨rfl, rfl, rfl⟩

theorem test_decode_rejects_bits :
    unpack 0x00000001 = .error (.malformedInstruction .add none) ∧
    unpack 0x30010000 = .error (.malformedInstruction .inc none) ∧
    unpack 0x81000009 = .error (.malformedInstruction .be none) ∧
    unpack 0xB0000001 = .error (.malformedInstruction .hlt none) := ⟨rfl, rfl, rfl, rfl⟩

theorem test_encode :
    encode (.add 1 2 0) = 0x01200000 ∧ encode (.sub 3 3 3) = 0x13330000 ∧
    encode (.mod 1 2 0) = 0x21200000 ∧ encode (.inc 1 0) = 0x31000000 ∧
    encode (.dec 1 0) = 0x41000000 ∧ encode (.ld 12 2) = 0x5200000C ∧
    encode (.st 2 16) = 0x62000010 ∧ encode (.mv 0 4) = 0x70400000 ∧
    encode (.be 3) = 0x80000003 ∧ encode (.bne 2) = 0x90000002 ∧
    encode (.jmp 0) = 0xA0000000 ∧ encode .hlt = 0xB0000000 := by decide

/-- The rows of the W32 table, in the order of their numbers. -/
def rows : List W32Row :=
  [w32Row .add, w32Row .sub, w32Row .mod, w32Row .inc, w32Row .dec, w32Row .ld, w32Row .st,
   w32Row .mv, w32Row .be, w32Row .bne, w32Row .jmp, w32Row .hlt]

/-- No word matches two rows: the patterns differ in a bit both masks hold. -/
theorem test_rows_disjoint :
    rows.Pairwise (fun p q => p.pattern &&& (p.mask &&& q.mask) ≠ q.pattern &&& (p.mask &&& q.mask)) := by
  decide

theorem test_pack_record :
    packRecord (Instr.be (-5)).toRecord = none ∧
    packRecord (Instr.ld 5 1).toRecord = some 0x51000005 ∧
    packRecord ⟨.known .add, [1, 2]⟩ = none := by decide

/-- The order of the decoder's tests: V-F3a, V-F3b, V-F3c, V-F4a. -/
theorem test_decode_record_order :
    decodeRecord ⟨.known .add, [1, 2]⟩ = .error (.malformedInstruction .add (some 2)) ∧
    decodeRecord ⟨.known .hlt, [0]⟩ = .error (.malformedInstruction .hlt (some 1)) ∧
    decodeRecord ⟨.known .add, [9, 8]⟩ = .error (.malformedInstruction .add (some 2)) ∧
    decodeRecord ⟨.unknown "FOO", [1]⟩ = .error (.unknownOpcode (.name "FOO")) :=
  ⟨rfl, rfl, rfl, rfl⟩

/-! ## Arithmetic, one step each (sections 2.1 to 2.4) -/

/-- One step of `w` with x[1] = a and x[2] = b. -/
def stepArith (w : BitVec 32) (a b : Int) : Option (Int × Bool × Int × Nat) :=
  seen arith (step (boxed (packed w) 0 a b 0 false))

theorem test_add_vectors :
    stepArith 0x01200000 5 3 = some (8, false, 4, 3) ∧
    stepArith 0x01200000 (-1) 1 = some (0, true, 4, 3) ∧
    stepArith 0x01200000 2147483647 1 = some (-2147483648, false, 4, 3) ∧
    stepArith 0x01200000 (-2147483648) (-2147483648) = some (0, true, 4, 3) := by decide

theorem test_add_same_register :
    seen arith (step (boxed (packed 0x00000000) 21 0 0 0 true)) = some (42, false, 4, 3) := by decide

theorem test_sub_vectors :
    stepArith 0x11200000 3 5 = some (-2, false, 4, 3) ∧
    stepArith 0x11200000 (-2147483648) (-2147483648) = some (0, true, 4, 3) ∧
    stepArith 0x11200000 0 (-2147483648) = some (-2147483648, false, 4, 3) ∧
    stepArith 0x11200000 (-2147483648) 2147483647 = some (1, false, 4, 3) := by decide

theorem test_sub_same_register :
    seen (fun t => ((t.reg 3).toInt, t.z)) (step (boxed (packed 0x13330000) 0 0 0 99 false)) =
      some (0, true) := by decide

theorem test_inc_vectors :
    stepArith 0x31000000 3 0 = some (4, false, 4, 3) ∧
    stepArith 0x31000000 (-1) 0 = some (0, true, 4, 3) ∧
    stepArith 0x31000000 2147483647 0 = some (-2147483648, false, 4, 3) := by decide

theorem test_dec_vectors :
    stepArith 0x41000000 1 0 = some (0, true, 4, 3) ∧
    stepArith 0x41000000 0 0 = some (-1, false, 4, 3) ∧
    stepArith 0x41000000 (-2147483648) 0 = some (2147483647, false, 4, 3) := by decide

theorem test_mod_vectors :
    stepArith 0x21200000 17 5 = some (2, false, 4, 3) ∧
    stepArith 0x21200000 (-6) 3 = some (0, true, 4, 3) ∧
    stepArith 0x21200000 (-2147483648) (-1) = some (0, true, 4, 3) ∧
    faultOf (step (boxed (packed 0x21200000) 0 9 0 0 false)) = some .divisionByZero := by decide

/-- x[0] after MOD of a and b under each convention, in the order of the table of section 2.4. -/
def modRow (a b : Int) : List (Option Int) :=
  [ModConvention.floored, .truncated, .euclidean].map fun m =>
    seen (fun t => (t.reg 0).toInt) (step (boxedUnder m (packed 0x21200000) a b))

theorem test_mod_conventions :
    modRow (-7) 3 = [some 2, some (-1), some 2] ∧
    modRow 7 (-3) = [some (-2), some 1, some 1] ∧
    modRow (-7) (-3) = [some (-1), some (-1), some 2] ∧
    modRow (-1) (-2147483648) = [some (-1), some (-1), some 2147483647] ∧
    modRow 1 (-2147483648) = [some (-2147483647), some 1, some 1] := by decide

/-- The ALU transforms, section 2.5. -/
theorem test_transforms :
    (Transform.neg.apply 5).toInt = -5 ∧ (Transform.neg.apply (-1)).toInt = 1 ∧
    (Transform.neg.apply (wrap32 (-2147483648))).toInt = -2147483648 ∧
    (Transform.inc.apply (wrap32 2147483647)).toInt = -2147483648 ∧
    (Transform.pass.apply (-1)).toInt = -1 := by decide

/-! ## Data movement, one step each (section 2.6) -/

/-- V-M1, V-M2 (another register and value), V-M6. -/
theorem test_ld_vectors :
    seen (fun t => ((t.reg 1).toInt, control t)) (step (boxed (packed 0x51000004) 0 0 0 0 false)) =
      some (5, 4, 3) ∧
    seen (fun t => (t.reg 3).toInt) (step (boxed (packed 0x53000007) 0 0 0 0 false)) = some 42 := by
  decide

/-- V-M3, V-M4, V-M5 (the LD at 3 reads itself), V-M16. -/
theorem test_ld_faults :
    faultOf (step (boxed (packed 0x50000008) 0 0 0 0 false)) = some (.memoryOutOfBounds 8) ∧
    faultOf (step (boxed (recorded (.ld (-1) 0)) 0 0 0 0 false)) = some (.memoryOutOfBounds (-1)) ∧
    faultOf (step (boxed (packed 0x51000003) 0 0 0 0 false)) = some (.notADataCell 3) ∧
    faultOf (step (boxed (packed 0x57000005) 0 0 0 0 false)) = some (.registerIndexOutOfBounds 7) := by
  decide

/-- V-M7 and V-M9 (the ST at 3 stores over itself). -/
theorem test_st_vectors :
    seen (fun t => (t.mem.read 7, (t.reg 0).toInt, control t))
      (step (boxed (packed 0x60000007) 2 0 0 0 false)) = some (.data 2, 2, 4, 3) ∧
    seen (fun t => (t.mem.read 3, t.mem.read 4))
      (step (boxed (packed 0x62000003) 0 0 (-1) 0 false)) = some (.data (-1), .data 5) := by decide

/-- V-M8; and a store of zero takes its entry out of the memory. -/
theorem test_st_edges :
    faultOf (step (boxed (packed 0x60000008) 2 0 0 0 false)) = some (.memoryOutOfBounds 8) ∧
    seen (fun t => t.mem) (step (boxed (packed 0x60000007) 0 0 0 0 false)) =
      some [(3, packed 0x60000007), (4, .data 5)] := by decide

/-- V-M12, V-M14, V-M15. -/
theorem test_mv_vectors :
    seen (fun t => ((t.reg 2).toInt, (t.reg 3).toInt, control t))
      (step (boxed (packed 0x73200000) 0 0 0 4 false)) = some (4, 4, 4, 3) ∧
    faultOf (step (boxed (packed 0x70400000) 0 0 0 0 false)) = some (.registerIndexOutOfBounds 4) ∧
    faultOf (step (boxed (packed 0x74000000) 0 0 0 0 false)) = some (.registerIndexOutOfBounds 4) := by
  decide

/-! ## Control flow, one step each (section 2.7) -/

/-- V-C1, V-C2, V-C8, V-C9. -/
theorem test_be_vectors :
    seen control (step (boxed (packed 0x80000009) 0 0 0 0 true)) = some (9, 4) ∧
    seen (fun t => (control t, t.z)) (step (boxed (packed 0x80000009) 0 0 0 0 false)) =
      some ((4, 3), false) ∧
    seen control (step (boxed (packed 0x80000004) 0 0 0 0 true)) = some (4, 4) ∧
    seen (fun t => (control t, t.z)) (step (boxed (recorded (.be (-5))) 0 0 0 0 false)) =
      some ((4, 3), false) := by decide

/-- V-C3, V-C4. -/
theorem test_bne_vectors :
    seen control (step (boxed (packed 0x90000009) 0 0 0 0 false)) = some (9, 4) ∧
    seen (fun t => (control t, t.z)) (step (boxed (packed 0x90000009) 0 0 0 0 true)) =
      some ((4, 3), true) := by decide

/-- V-C5. -/
theorem test_jmp_vectors :
    seen control (step (boxed (packed 0xA0000000) 0 0 0 0 false)) = some (0, 3) ∧
    seen control (step (boxed (packed 0xA0000000) 0 0 0 0 true)) = some (0, 3) := by decide

/-- V-C6. -/
theorem test_hlt_vectors :
    seen (fun t => (control t, t.z, t.status, t.instrCount))
      (step (boxed (packed 0xB0000000) 0 0 0 0 true)) = some ((4, 2), true, .halted, 1) := by decide

/-! ## The cycle (section 2.8) -/

/-- V-F2b, V-F3a, V-F4a, and a packed word with a must-be-zero bit set. -/
theorem test_decode_faults :
    faultOf (step (boxed (packed 0x09870000) 0 0 0 0 false)) = some (.registerIndexOutOfBounds 9) ∧
    faultOf (step (boxed (.instr (.record ⟨.known .add, [1, 2]⟩)) 0 0 0 0 false)) =
      some (.malformedInstruction .add (some 2)) ∧
    faultOf (step (boxed (.instr (.record ⟨.unknown "FOO", [1]⟩)) 0 0 0 0 false)) =
      some (.unknownOpcode (.name "FOO")) ∧
    faultOf (step (boxed (packed 0xB0000001) 0 0 0 0 false)) =
      some (.malformedInstruction .hlt none) := by decide

/-- V-F5d, V-F5e: an image of one HLT, MEM_SIZE 2, STEP_LIMIT 0 and 1. -/
theorem test_ceiling :
    runToEnd (launchState [packed 0xB0000000] (Config.defaults 2 0) #v[1, 2, 3, 4] true) =
      some (.fatal (.stepLimitExceeded 0)) ∧
    runToEnd (launchState [packed 0xB0000000] (Config.defaults 2 1) #v[1, 2, 3, 4] true) =
      some (.halted 1 2 #v[1, 2, 3, 4, 1] true [(0, packed 0xB0000000)]) := by decide

/-- V-F6c: an empty image, MEM_SIZE 1. -/
theorem test_empty_image :
    faultOf (step (launchState [] (Config.defaults 1 10000) #v[0, 0, 0, 0] false)) =
      some (.notAnInstruction 0) := by decide

/-- From reset with nothing placed the first fetch reads the zero fill (log 23). -/
theorem test_reset_step : faultOf (step State.reset) = some (.notAnInstruction 0) := by decide

/-- An instruction placed by `withFetchWord` is the one the next step runs. -/
theorem test_with_fetch_word :
    seen (fun t => (t.status, t.pc.toInt)) (step (State.reset.withFetchWord 32 0xB0000000)) =
      some (.halted, 1) := by decide

/-- No step from a state that has ended. -/
theorem test_ended_state :
    completes (step { boxed (packed 0) 0 0 0 0 false with status := .halted }) = false ∧
    faultOf (step { boxed (packed 0) 0 0 0 0 false with status := .halted }) = none := by decide

/-! ## Loading and the serialised form -/

/-- V-L1 and V-L2. -/
theorem test_image_size :
    launch (List.replicate 8 (.data 0)) params #v[0, 0, 0, 0] false = .error (.imageTooLarge 8 8) ∧
    (launch (List.replicate 7 (.data 1)) params #v[0, 0, 0, 0] false).toOption.map
      (fun s => (s.mem.read 6, s.mem.read 7)) = some (.data 1, .data 0) := ⟨rfl, by decide⟩

/-- V-L3 and V-L4; a symbolic operand; an int32 at the edge. -/
theorem test_load_refusals :
    readImage .defaults [.object [("opcode", .str "nop"), ("operands", .list [])]] =
      .error (.unknownOpcodeName "nop") ∧
    loadCell (.data 4294967296) = .error (.integerOutOfRange 4294967296) ∧
    loadCell (.instr (.known .jmp) [.symbol "loop"]) = .error (.notAnInteger "loop") ∧
    loadCell (.data (-2147483648)) = .ok (.data (wrap32 (-2147483648))) := ⟨rfl, rfl, rfl, rfl⟩

/-- The two lines of spec/30_encoding.md R93's example of the listing notation, and HLT. -/
theorem test_listing :
    listingLine 3 (packed 0x80000009) = some "3: BE 9" ∧
    listingLine 7 (.data 2) = some "7: .data 2" ∧
    listing (.sub 1 2 0) = "SUB 1, 2, 0" ∧ listing .hlt = "HLT" := by decide

/-! ## The code generator: the images of P1, P2 and P3 -/

/-- An instruction cell of an image with integer operands. -/
def cell (op : Opcode) (operands : List Int) : ImageCell := .instr (.known op) (operands.map .int)

/-- `x = 5; y = 3; z = x - y;` -/
def sourceP1 : Statement :=
  .seq (.assign "x" (.literal 5)) (.seq (.assign "y" (.literal 3))
    (.assign "z" (.binary .minus (.variableRef "x") (.variableRef "y"))))

/-- `x = 1; while (x != 10) (x = x + 1)` -/
def sourceP2 : Statement :=
  .seq (.assign "x" (.literal 1))
    (.whileDo ⟨.variableRef "x", .notEqual, .literal 10⟩
      (.assign "x" (.binary .plus (.variableRef "x") (.literal 1))))

/-- `if (1 == 2) (x = 1)` -/
def sourceP3 : Statement :=
  .ifThen ⟨.literal 1, .equal, .literal 2⟩ (.assign "x" (.literal 1))

def imageP1 : List ImageCell :=
  [cell .ld [5, 1], cell .ld [6, 2], cell .sub [1, 2, 0], cell .st [0, 7], cell .hlt [],
   .data 5, .data 3, .data 0]

def imageP2 : List ImageCell :=
  [cell .ld [10, 1], cell .ld [11, 2], cell .sub [1, 2, 0], cell .be [9], cell .ld [10, 1],
   cell .ld [12, 2], cell .add [1, 2, 0], cell .st [0, 10], cell .jmp [0], cell .hlt [],
   .data 1, .data 10, .data 1]

def imageP3 : List ImageCell :=
  [cell .ld [5, 1], cell .ld [6, 2], cell .sub [1, 2, 0], cell .bne [4], cell .hlt [],
   .data 1, .data 2, .data 1]

theorem test_generate_p1 : (generate sourceP1).toOption = some imageP1 := by decide

theorem test_generate_p2 : (generate sourceP2).toOption = some imageP2 := by decide

theorem test_generate_p3 : (generate sourceP3).toOption = some imageP3 := by decide

/-- A name used before it is assigned (spec/50_program_image_and_codegen.md R153). -/
theorem test_generate_undeclared :
    generate (.assign "x" (.variableRef "y")) = .error (.undeclaredVariable "y") := rfl

/-! ## The micro-sequences: their ticks are EXEC_TICKS (R38, R45) -/

/-- The ticks of the execute rows of HLT and of ADD under the defaults (0 and 1), and of ADD under an
EXEC_TICKS of 3. -/
theorem test_micro_ticks :
    seen (fun t => t.tickCount) (microExec .hlt (boxed (packed 0) 0 0 0 0 false)) = some 0 ∧
    seen (fun t => t.tickCount) (microExec (.add 1 2 0) (boxed (packed 0) 0 0 0 0 false)) = some 1 ∧
    seen (fun t => t.tickCount) (microExec (.add 1 2 0)
      { boxed (packed 0) 0 0 0 0 false with
        params := { params with execTicks := ⟨3, 1, 1, 1, 1, 1, 1, 1, 1, 0⟩ } }) = some 3 := by decide

/-! ## Witnesses: the hypotheses of each statement, met together -/

/-- For LaunchFillsMemory and LaunchMeetsInvariant.
An image with all three kinds of cell, and an empty one. -/
theorem witness_launch :
    (∃ s, launch [cell .ld [5, 1], .data (-7), .word 0xB0000000] params #v[7, 8, 9, 10] true = .ok s) ∧
    (∃ s, launch [] (Config.defaults 1 0) #v[0, 0, 0, 0] false = .ok s) := ⟨⟨_, rfl⟩, ⟨_, rfl⟩⟩

/-- For LoaderRefusals.
Just outside int32 on either side, in a data cell and in an operand; a symbolic operand. -/
theorem witness_loader_refusals :
    params.memSize ≤ (List.replicate 8 (ImageCell.data 0)).length ∧
    (ImageCell.data 2147483648 ∈ [ImageCell.data 2147483648] ∧ ¬ IsInt32 2147483648) ∧
    (ImageCell.data (-2147483649) ∈ [ImageCell.data (-2147483649)] ∧ ¬ IsInt32 (-2147483649)) ∧
    (cell .jmp [2147483648] ∈ [cell .jmp [2147483648]] ∧
      ImageOperand.int 2147483648 ∈ [ImageOperand.int 2147483648]) ∧
    ImageOperand.symbol "loop" ∈ [ImageOperand.symbol "loop"] := by
  decide

/-- For LoaderRefusalsHaveTheirCause.
One image for each refusal of the loader; a MEM_SIZE above 2^24 is none without a W32 word. -/
theorem witness_loader_causes :
    launch (List.replicate 8 (.data 0)) params #v[0, 0, 0, 0] false = .error (.imageTooLarge 8 8) ∧
    launch [.data 2147483648] params #v[0, 0, 0, 0] false = .error (.integerOutOfRange 2147483648) ∧
    launch [cell .jmp [-2147483649]] params #v[0, 0, 0, 0] false =
      .error (.integerOutOfRange (-2147483649)) ∧
    launch [.instr (.known .jmp) [.symbol "loop"]] params #v[0, 0, 0, 0] false =
      .error (.notAnInteger "loop") ∧
    launch [.word 0] (Config.defaults 16777217 1) #v[0, 0, 0, 0] false =
      .error (.memSizeOutOfRange 16777217) ∧
    launch [.data 0] (Config.defaults 2147483649 1) #v[0, 0, 0, 0] false =
      .error (.memSizeOutOfRange 2147483649) ∧
    (∃ s, launch [.data 0] (Config.defaults 16777217 1) #v[0, 0, 0, 0] false = .ok s) :=
  ⟨rfl, rfl, rfl, rfl, rfl, rfl, _, rfl⟩

/-- For AddWritesWrappedSum, SubWritesWrappedDifference, IncWritesSuccessor and DecWritesPredecessor.
One illegal operand in each place. -/
theorem witness_ill_formed_arithmetic :
    ¬ (Instr.add 4 2 0).WellFormed ∧ ¬ (Instr.sub 1 (-1) 0).WellFormed ∧
    ¬ (Instr.inc 1 4).WellFormed ∧ ¬ (Instr.dec 4 0).WellFormed := by decide

/-- For ModWritesRemainder.
A dividend of -7 and a divisor of 3 under each convention, with the remainder of section 2.4. -/
theorem witness_mod :
    (boxedUnder .floored (packed 0) (-7) 3).reg 2 ≠ 0 ∧ (2 : Int) = Int.fmod (-7) 3 ∧
    (boxedUnder .truncated (packed 0) (-7) 3).params.modConvention = .truncated ∧
    (-1 : Int) = Int.tmod (-7) 3 ∧
    (boxedUnder .euclidean (packed 0) (-7) 3).params.modConvention = .euclidean ∧
    (2 : Int) = Int.emod (-7) 3 := by decide

/-- For ModAgreesUnderEveryConvention. -/
theorem witness_mod_completes :
    (∃ t, exec (.mod (gprOperand 1) (gprOperand 2) (gprOperand 0))
      (boxed (packed 0) 0 17 5 0 false) = .next t) ∧
    0 ≤ ((boxed (packed 0) 0 17 5 0 false).reg 1).toInt ∧
    0 < ((boxed (packed 0) 0 17 5 0 false).reg 2).toInt :=
  ⟨exists_next_of_completes (by decide), by decide, by decide⟩

/-- For ModByZeroFaults. -/
theorem witness_mod_by_zero : (boxed (packed 0) 0 9 0 0 false).reg 2 = 0 := by decide

/-- For LdLoadsDataCell and StStoresDataCell.
LD and ST at the lowest and at the highest address. -/
theorem witness_access_in_bounds :
    (0 ≤ (0 : Word).toInt ∧ (0 : Word).toInt < (boxed (packed 0) 0 0 0 0 false).params.memSize ∧
      (boxed (packed 0) 0 0 0 0 false).mem.read (0 : Word).toInt.toNat = .data 0) ∧
    (0 ≤ (7 : Word).toInt ∧ (7 : Word).toInt < (boxed (packed 0) 0 0 0 0 false).params.memSize ∧
      (boxed (packed 0) 0 0 0 0 false).mem.read (7 : Word).toInt.toNat = .data 42) := by decide

/-- For LoadSeesLatestStore. -/
theorem witness_store_completes :
    ∃ t, exec (.st (gprOperand 0) 7) (boxed (packed 0) 2 0 0 0 false) = .next t :=
  exists_next_of_completes (by decide)

/-- For AccessOutOfBoundsFaults.
Addresses just outside: -1 and MEM_SIZE. -/
theorem witness_access_out_of_bounds :
    (-1 : Word).toInt < 0 ∧
    (boxed (packed 0) 0 0 0 0 false).params.memSize ≤ (8 : Word).toInt := by decide

/-- For LoadOfInstructionCellFaults. -/
theorem witness_load_of_instruction_cell :
    0 ≤ (3 : Word).toInt ∧ (3 : Word).toInt < (boxed (packed 0) 0 0 0 0 false).params.memSize ∧
    (boxed (packed 0) 0 0 0 0 false).mem.read (3 : Word).toInt.toNat = .instr (.word 0) := by decide

/-- For BeBranchesWhenZero and BneBranchesWhenNotZero. -/
theorem witness_branch_flags :
    (boxed (packed 0) 0 0 0 0 false).z = false ∧ (boxed (packed 0) 0 0 0 0 true).z = true := by decide

/-- The fetch conditions hold in `boxed`, whatever instruction it holds. -/
theorem boxed_fetches (p : Payload) (r0 r1 r2 r3 : Int) (z : Bool) :
    (boxed (.instr p) r0 r1 r2 r3 z).Fetches p :=
  ⟨rfl, show 0 < 10000 by decide, show 0 ≤ (3 : Word).toInt by decide,
    show (3 : Word).toInt < (8 : Nat) by decide, rfl⟩

/-- For CompareThenBranch.
Equal and unequal registers, each with a BE and with a BNE at the address the next step fetches. -/
theorem witness_compare :
    (∃ t, exec (.sub (gprOperand 1) (gprOperand 2) (gprOperand 0))
      (boxed (packed 0x80000009) 0 4 4 0 false) = .next t ∧ t.Fetches (.word 0x80000009)) ∧
    (∃ t, exec (.sub (gprOperand 1) (gprOperand 2) (gprOperand 0))
      (boxed (packed 0x90000009) 0 4 5 0 false) = .next t ∧ t.Fetches (.word 0x90000009)) ∧
    decodePayload (.word 0x80000009) = .ok (.be 9) ∧ decodePayload (.word 0x90000009) = .ok (.bne 9) ∧
    (boxed (packed 0x80000009) 0 4 4 0 false).reg 1 = (boxed (packed 0x80000009) 0 4 4 0 false).reg 2 ∧
    (boxed (packed 0x90000009) 0 4 5 0 false).reg 1 ≠ (boxed (packed 0x90000009) 0 4 5 0 false).reg 2 :=
  ⟨⟨_, rfl, by decide, by decide, by decide, by decide, by decide⟩,
    ⟨_, rfl, by decide, by decide, by decide, by decide, by decide⟩, rfl, rfl, by decide, by decide⟩

/-- For BadTargetFaultsAtNextFetch.
A jump to MEM_SIZE, to -1, and to the data cell at MEM_SIZE - 1. -/
theorem witness_bad_target :
    (∃ s : State, s.Fetches (.word 0xA0000008) ∧ s.instrCount + 1 < s.params.stepLimit ∧
      s.params.memSize ≤ (8 : Word).toInt) ∧
    decodePayload (.word 0xA0000008) = .ok (.jmp 8) ∧
    decodePayload (.record (Instr.jmp (-1)).toRecord) = .ok (.jmp (-1)) ∧ (-1 : Word).toInt < 0 ∧
    decodePayload (.word 0xA0000007) = .ok (.jmp 7) ∧
    (boxed (packed 0xA0000007) 0 0 0 0 false).mem.read (7 : Word).toInt.toNat = .data 42 :=
  ⟨⟨boxed (packed 0xA0000008) 0 0 0 0 false, boxed_fetches .., by decide, by decide⟩, rfl, rfl,
    by decide, rfl, by decide⟩

/-- For FrameOfArithmetic. -/
theorem witness_frame_of_arithmetic :
    ∀ i ∈ [Instr.add 1 2 0, .sub 1 2 0, .mod 1 2 0, .inc 1 0, .dec 1 0],
      definesFlag i = true ∧ ∃ t, exec i (boxed (packed 0) 0 17 5 0 false) = .next t := by
  have h : ∀ i ∈ [Instr.add 1 2 0, .sub 1 2 0, .mod 1 2 0, .inc 1 0, .dec 1 0],
      definesFlag i = true ∧ completes (exec i (boxed (packed 0) 0 17 5 0 false)) = true := by decide
  exact fun i hi => ⟨(h i hi).1, exists_next_of_completes (h i hi).2⟩

/-- For FrameOfLoadAndMove. -/
theorem witness_frame_of_load_and_move :
    ∀ i ∈ [Instr.ld 7 1, .mv 1 0],
      (i.opcode = .ld ∨ i.opcode = .mv) ∧
      ∃ t, exec i (boxed (packed 0) 0 17 5 0 false) = .next t := by
  have h : ∀ i ∈ [Instr.ld 7 1, .mv 1 0],
      (i.opcode = .ld ∨ i.opcode = .mv) ∧
      completes (exec i (boxed (packed 0) 0 17 5 0 false)) = true := by decide
  exact fun i hi => ⟨(h i hi).1, exists_next_of_completes (h i hi).2⟩

/-- For FrameOfStore. -/
theorem witness_frame_of_store :
    (∃ t, exec (.st 0 0) (boxed (packed 0) 2 0 0 0 false) = .next t) ∧
    storeAddress (.st 0 0) = some 0 ∧ storeAddress (.st 0 7) = some 7 :=
  ⟨exists_next_of_completes (by decide), by decide, by decide⟩

/-- For FrameOfTransfers.
Taken and not taken. -/
theorem witness_frame_of_transfers :
    ∀ i ∈ [Instr.be 6, .bne 6, .jmp 6], ∀ z ∈ [false, true],
      transfersControl i = true ∧ ∃ t, exec i (boxed (packed 0) 0 0 0 0 z) = .next t := by
  have h : ∀ i ∈ [Instr.be 6, .bne 6, .jmp 6], ∀ z ∈ [false, true],
      transfersControl i = true ∧ completes (exec i (boxed (packed 0) 0 0 0 0 z)) = true := by decide
  exact fun i hi z hz => ⟨(h i hi z hz).1, exists_next_of_completes (h i hi z hz).2⟩

/-- For FrameOfHalt. -/
theorem witness_frame_of_halt : ∃ t, exec .hlt (boxed (packed 0) 0 0 0 0 false) = .next t :=
  exists_next_of_completes (by decide)

/-- For IllegalRegisterOperandFaults.
The first, a middle and the last operand; 4 and -1, the integers next to the legal ones. -/
theorem witness_illegal_register :
    (Instr.add 4 8 7).registerOperands.find? (fun r => !decide (IsRegisterIndex r)) = some 4 ∧
    (Instr.sub 3 (-1) 7).registerOperands.find? (fun r => !decide (IsRegisterIndex r)) = some (-1) ∧
    (Instr.ld 8 4).registerOperands.find? (fun r => !decide (IsRegisterIndex r)) = some 4 ∧
    (Instr.mv 0 3).WellFormed := by decide

/-- For FlagWritersAndReaders. -/
theorem witness_flag_writers :
    (definesFlag (.dec 1 0) = true ∧ destination (.dec 1 0) = some (gprOperand 0) ∧
      ∃ t, exec (.dec 1 0) (boxed (packed 0) 0 1 0 0 false) = .next t) ∧
    (∃ p t, (boxed (packed 0) 0 0 0 0 true).fetch = .ok (p, t)) ∧
    (∃ t, exec (.be 9) (boxed (packed 0) 0 0 0 0 false) = .next t) ∧
    (∃ t, exec (.bne 9) (boxed (packed 0) 0 0 0 0 true) = .next t) ∧
    readsFlag (.ld 4 0) = false :=
  ⟨⟨by decide, by decide, exists_next_of_completes (by decide)⟩, ⟨_, _, rfl⟩,
    exists_next_of_completes (by decide), exists_next_of_completes (by decide), by decide⟩

/-- For FetchIncrementsPcAndKeepsFlag.
A fetch that completes, at the highest address too. -/
theorem witness_fetch :
    (∃ p t, (boxed (packed 0) 0 0 0 0 true).fetch = .ok (p, t)) ∧
    (∃ p t, (State.setPc { boxed (packed 0) 0 0 0 0 true with mem := [(7, packed 0)] } 7).fetch =
      .ok (p, t)) ∧
    (boxed (packed 0) 0 0 0 0 true).status = .running ∧
    (boxed (packed 0) 0 0 0 0 true).instrCount < params.stepLimit ∧
    decodePayload (.word 0) = .ok (.add 0 0 0) :=
  ⟨⟨_, _, rfl⟩, ⟨_, _, rfl⟩, by decide, by decide, rfl⟩

/-- For FetchIncrementsPcAndKeepsFlag.
A fetch whose branch is then not taken. -/
theorem witness_fetch_untaken :
    ∃ p t u, (boxed (packed 0x80000009) 0 0 0 0 false).fetch = .ok (p, t) ∧ t.z = false ∧
      exec (.be 9) t = .next u := ⟨_, _, _, rfl, rfl, rfl⟩

/-- For StepRunsDecodedInstruction. -/
theorem witness_step_runs_decoded :
    ∃ s p i, State.Fetches s p ∧ decodePayload p = .ok i ∧ i = .sub 1 2 0 :=
  ⟨boxed (packed 0x11200000) 0 0 0 0 false, _, _, boxed_fetches .., rfl, rfl⟩

/-- For CeilingFaultsBeforeFetch.
A ceiling of zero and a ceiling just met. -/
theorem witness_ceiling :
    (∃ s : State, s.status = .running ∧ s.params.stepLimit = 0 ∧ s.instrCount = 0) ∧
    (∃ s : State, s.status = .running ∧ s.params.stepLimit = 10000 ∧ s.instrCount = 10000) :=
  ⟨⟨launchState [] (Config.defaults 8 0) #v[0, 0, 0, 0] false, by decide⟩,
    ⟨{ boxed (packed 0) 0 0 0 0 false with instrCount := 10000 }, by decide⟩⟩

/-- For FetchFaults.
pc at MEM_SIZE, at -1, and at the data cell of address 7. -/
theorem witness_fetch_faults :
    [(8 : Word), -1, 7].all (fun a =>
      (boxed (packed 0) 0 0 0 0 false).status == .running &&
      decide ((boxed (packed 0) 0 0 0 0 false).instrCount < params.stepLimit) &&
      decide ((State.setPc (boxed (packed 0) 0 0 0 0 false) a).pc = a)) = true ∧
    params.memSize ≤ (8 : Word).toInt ∧ (-1 : Word).toInt < 0 ∧
    0 ≤ (7 : Word).toInt ∧ (7 : Word).toInt < params.memSize ∧
    (boxed (packed 0) 0 0 0 0 false).mem.read (7 : Word).toInt.toNat = .data 42 := by decide

/-- For UnknownOpcodeFaults. -/
theorem witness_unknown_opcode : ∃ s : State, s.Fetches (.record ⟨.unknown "FOO", [1]⟩) :=
  ⟨boxed (.instr (.record ⟨.unknown "FOO", [1]⟩)) 0 0 0 0 false, boxed_fetches ..⟩

/-- For OperandCountIsChecked.
One operand too few and one too many. -/
theorem witness_operand_count :
    ([1, 2, 0] : List Word).length = Opcode.add.arity ∧
    (∃ s : State, s.Fetches (.record ⟨.known .add, [1, 2]⟩)) ∧
    ([1, 2] : List Word).length ≠ Opcode.add.arity ∧
    (∃ s : State, s.Fetches (.record ⟨.known .hlt, [0]⟩)) ∧
    ([0] : List Word).length ≠ Opcode.hlt.arity ∧
    (∃ s : State, step s = .fault (.malformedInstruction .add (some 2))) :=
  ⟨rfl, ⟨boxed (.instr (.record ⟨.known .add, [1, 2]⟩)) 0 0 0 0 false, boxed_fetches ..⟩, by decide,
    ⟨boxed (.instr (.record ⟨.known .hlt, [0]⟩)) 0 0 0 0 false, boxed_fetches ..⟩, by decide,
    ⟨boxed (.instr (.record ⟨.known .add, [1, 2]⟩)) 0 0 0 0 false, rfl⟩⟩

/-- For StatusChangesOnlyAtTheEnd. -/
theorem witness_status :
    (∃ s, launch imageP1 (Config.defaults 16 10000) #v[0, 0, 0, 0] false = .ok s) ∧
    (∃ s t p, State.Fetches s p ∧ decodePayload p = .ok .hlt ∧ step s = .next t) ∧
    (∃ s t p, State.Fetches s p ∧ decodePayload p = .ok (.add 1 2 0) ∧ step s = .next t) ∧
    (∃ s, step s = .fault .divisionByZero) ∧
    RunStatus.halted ≠ .running ∧ RunStatus.faulted .divisionByZero ≠ .running :=
  ⟨⟨_, rfl⟩, ⟨boxed (packed 0xB0000000) 0 0 0 0 false, _, _, boxed_fetches .., rfl, rfl⟩,
    ⟨boxed (packed 0x01200000) 0 0 0 0 false, _, _, boxed_fetches .., rfl, rfl⟩,
    ⟨boxed (packed 0x21200000) 0 9 0 0 false, rfl⟩, by decide, by decide⟩

/-- For RunningMachineIsNeverRefused and EveryRunEnds. -/
theorem witness_running : State.reset.status = .running := by decide

/-- For ConditionalBranchTicks. -/
theorem witness_branch_ticks :
    ∀ z ∈ [false, true],
      (∃ t, exec (.be 9) (boxed (packed 0) 0 0 0 0 z) = .next t) ∧
      (∃ t, exec (.bne 9) (boxed (packed 0) 0 0 0 0 z) = .next t) := by
  have h : ∀ z ∈ [false, true],
      completes (exec (.be 9) (boxed (packed 0) 0 0 0 0 z)) = true ∧
      completes (exec (.bne 9) (boxed (packed 0) 0 0 0 0 z)) = true := by decide
  exact fun z hz => ⟨exists_next_of_completes (h z hz).1, exists_next_of_completes (h z hz).2⟩

/-- For StepKeepsInvariant, StepCountsInstructionAndTicks and ParametersAreConstant.
A state that meets the invariant and has a next one; it is one short of the ceiling. -/
theorem witness_invariant :
    ∃ s t : State, s.Inv ∧ s.instrCount + 1 = s.params.stepLimit ∧ step s = .next t :=
  ⟨{ boxed (packed 0x60000007) 2 0 0 0 false with instrCount := 9999, tickCount := 19998 }, _,
    ⟨by decide, by decide, by decide, by decide⟩, by decide, rfl⟩

/-- For OnlyStoresWriteAndOnlyData.
A step that changes memory: the ST of 2 into cell 7. -/
theorem witness_step_stores :
    ∃ s t : State, step s = .next t ∧ t.mem.read 7 ≠ s.mem.read 7 ∧ t.mem.read 3 = packed 0x60000007 :=
  ⟨boxed (packed 0x60000007) 2 0 0 0 false, _, rfl, by decide, by decide⟩

/-- For EveryRunEnds. -/
theorem witness_run_halts :
    ∃ n k x z m, runToEnd (boxed (packed 0xB0000000) 0 0 0 0 false) = some (.halted n k x z m) :=
  ⟨_, _, _, _, _, rfl⟩

/-- For MicroSequencesMeetTheRules. -/
theorem witness_micro :
    (∃ s : State, s.ir = some (.word 0x01200000) ∧ decodePayload (.word 0x01200000) = .ok (.add 1 2 0)) ∧
    (∃ t, (boxed (packed 0) 0 0 0 0 false).microRun fetchSequence = .ok t) ∧
    (State.setPc (boxed (packed 0) 0 0 0 0 false) 8).fetch = .error (.memoryOutOfBounds 8) :=
  ⟨⟨{ boxed (packed 0) 0 0 0 0 false with ir := some (.word 0x01200000) }, rfl, rfl⟩, ⟨_, rfl⟩, rfl⟩

/-- For W32WordsRejected. -/
theorem witness_rejected_words :
    (12 ≤ (0xC0000000 : BitVec 32).toNat / 268435456 ∧
      (0x30010000 : BitVec 32).toNat / 268435456 = (opcodeNumber .inc).toNat ∧
      (0x30010000 : BitVec 32) &&& (w32Row .inc).mask ≠ (w32Row .inc).pattern) ∧
    (∃ s : State, s.Fetches (.word 0xC0000000)) ∧ (∃ s : State, s.Fetches (.word 0x30010000)) :=
  ⟨by decide, ⟨boxed (packed 0xC0000000) 0 0 0 0 false, boxed_fetches ..⟩,
    ⟨boxed (packed 0x30010000) 0 0 0 0 false, boxed_fetches ..⟩⟩

/-- For DecodeReadsBackEncoding.
Operands at the top of their fields. -/
theorem witness_packable :
    (Instr.add 15 15 15).Packable ∧ (Instr.ld 16777215 15).Packable ∧ (Instr.st 15 16777215).Packable ∧
    (Instr.be 16777215).Packable ∧ (Instr.mv 0 15).Packable ∧ Instr.hlt.Packable := by decide

/-- For AcceptedWordIsItsEncoding. -/
theorem witness_accepted_word : decodeWord 0x5FFFFFFF = .ok (.ld 16777215 15) := rfl

/-- For SerialisedImageReadsBack.
P1's image in the serialised form of spec/95_test_vectors.md. -/
theorem witness_serialised :
    JsonKeys.defaults.opcode ≠ JsonKeys.defaults.operands ∧
    (∀ w, ImageCell.word w ∉ imageP1) ∧
    writeImage .defaults [cell .st [0, 7], .data 5] =
      some [.object [("opcode", .str "st"), ("operands", .list [.int 0, .int 7])], .int 5] ∧
    (writeImage .defaults imageP1).isSome = true ∧
    (∀ op, "nop" ≠ opcodeName op) :=
  ⟨by decide, by simp [imageP1, cell], rfl, rfl, fun op => by cases op <;> decide⟩

/-- For GeneratedImageLayout and GeneratedCodeKeepsFlagProtocol. -/
theorem witness_generate :
    (∃ image, generate sourceP2 = .ok image) ∧ (∃ image, generate sourceP3 = .ok image) :=
  ⟨⟨_, rfl⟩, ⟨_, rfl⟩⟩

end Sys2Proof.Tests
end

/-! ## No step changes a parameter of the run (spec/00_scope.md R5, R8)

Each shared ending of an instruction keeps `params`; so every instruction does, and with it every
step. -/

namespace Sys2Proof.Machine

@[simp] theorem State.moveToReg_params (s : State) (op : Opcode) (v : Word) (d : Fin 4) :
    (s.moveToReg op v d).params = s.params := rfl

@[simp] theorem State.jumpTo_params (s : State) (op : Opcode) (target : Word) :
    (s.jumpTo op target).params = s.params := rfl

@[simp] theorem State.branch_params (s : State) (op : Opcode) (taken : Bool) (target : Word) :
    (s.branch op taken target).params = s.params := by
  cases taken <;> rfl

theorem State.aluToReg_params {s t : State} {op : Opcode} {l r : Word} {tl tr : Transform}
    {aop : AluOp} {d : Fin 4} (h : s.aluToReg op l r tl tr aop d = .next t) :
    t.params = s.params := by
  obtain ⟨v, -, rfl⟩ := State.aluToReg_next h
  rfl

theorem State.memWrite_params {s t : State} {a : Int} {v : Word} (h : s.memWrite a v = .ok t) :
    t.params = s.params := by
  obtain ⟨-, -, rfl⟩ := State.memWrite_eq_ok h
  rfl

theorem exec_params {i : Instr} {s t : State} (h : exec i s = .next t) : t.params = s.params := by
  cases i with
  | add r1 r2 rres =>
    obtain ⟨a, b, d, -, -, -, h⟩ := execAdd_next h
    exact State.aluToReg_params h
  | sub r1 r2 rres =>
    obtain ⟨a, b, d, -, -, -, h⟩ := execSub_next h
    exact State.aluToReg_params h
  | mod r1 r2 rres =>
    obtain ⟨a, b, d, -, -, -, h⟩ := execMod_next h
    exact State.aluToReg_params h
  | inc r rres =>
    obtain ⟨a, d, -, -, h⟩ := execInc_next h
    exact State.aluToReg_params h
  | dec r rres =>
    obtain ⟨a, d, -, -, h⟩ := execDec_next h
    exact State.aluToReg_params h
  | ld addr rres =>
    obtain ⟨d, v, -, -, rfl⟩ := execLd_next h
    exact s.moveToReg_params .ld v d
  | st r addr =>
    obtain ⟨a, u, -, hu, rfl⟩ := execSt_next h
    simpa using State.memWrite_params hu
  | mv r1 rres =>
    obtain ⟨a, d, -, -, rfl⟩ := execMv_next h
    exact s.moveToReg_params .mv (s.reg a) d
  | be target =>
    cases h
    exact s.branch_params .be s.z target
  | bne target =>
    cases h
    exact s.branch_params .bne (!s.z) target
  | jmp target =>
    cases h
    simp
  | hlt =>
    cases h
    simp

/-- Settles O44: the fetch and the retirement keep the parameters, and so does every instruction. -/
theorem parametersAreConstant : Obligations.ParametersAreConstant := by
  intro s t h
  obtain ⟨p, i, u, -, -, hexec, rfl⟩ := step_next h
  calc u.retire.params = u.params := State.retire_params u
    _ = (s.fetched p).params := exec_params hexec
    _ = s.params := State.fetched_params s p

end Sys2Proof.Machine

/-! ## HLT and the branches that are not taken (spec/42_control_flow.md R130, R131, R133) -/

namespace Sys2Proof.Machine

theorem exec_hlt (s : State) : exec .hlt s = .next (s.tick (s.execTicks .hlt)).halt := rfl

/-- A BE with Z = 0 costs its ticks and does nothing else. -/
theorem exec_be_of_not_zero {s : State} (target : Word) (hz : s.z = false) :
    exec (.be target) s = .next (s.tick (s.execTicks .be)) := by
  simp only [exec, execBe, State.branch, hz, Bool.false_eq_true, if_false]

/-- A BNE with Z = 1 costs its ticks and does nothing else. -/
theorem exec_bne_of_zero {s : State} (target : Word) (hz : s.z = true) :
    exec (.bne target) s = .next (s.tick (s.execTicks .bne)) := by
  simp only [exec, execBne, State.branch, hz, Bool.not_true, Bool.false_eq_true, if_false]

/-- Settles O27: HLT changes the status and the ticks, and neither is among the fields named. -/
theorem frameOfHalt : Obligations.FrameOfHalt := by
  intro s t h
  rw [exec_hlt] at h
  cases h
  exact ⟨⟨fun j => rfl, fun a => rfl, rfl, rfl, rfl⟩, rfl, rfl, rfl⟩

end Sys2Proof.Machine

/-! ## The zero flag: who writes it and who reads it (spec/10_state.md R15) -/

namespace Sys2Proof.Machine

/-- What the five flag-defining instructions have in common (spec/40_arithmetic.md R100): one that
completes has latched an ALU result into its destination register. -/
theorem exec_next_of_definesFlag {i : Instr} {s t : State} (hi : definesFlag i = true)
    (h : exec i s = .next t) :
    ∃ op l r tl tr aop d, destination i = some (gprOperand d) ∧
      s.aluToReg op l r tl tr aop d = .next t := by
  cases i with
  | add r1 r2 rres =>
    obtain ⟨a, b, d, -, -, rfl, halu⟩ := execAdd_next h
    exact ⟨_, _, _, _, _, _, d, rfl, halu⟩
  | sub r1 r2 rres =>
    obtain ⟨a, b, d, -, -, rfl, halu⟩ := execSub_next h
    exact ⟨_, _, _, _, _, _, d, rfl, halu⟩
  | mod r1 r2 rres =>
    obtain ⟨a, b, d, -, -, rfl, halu⟩ := execMod_next h
    exact ⟨_, _, _, _, _, _, d, rfl, halu⟩
  | inc r rres =>
    obtain ⟨a, d, -, rfl, halu⟩ := execInc_next h
    exact ⟨_, _, _, _, _, _, d, rfl, halu⟩
  | dec r rres =>
    obtain ⟨a, d, -, rfl, halu⟩ := execDec_next h
    exact ⟨_, _, _, _, _, _, d, rfl, halu⟩
  | ld _ _ | st _ _ | mv _ _ | be _ | bne _ | jmp _ | hlt => cases hi

theorem gprOperand_injective : Function.Injective gprOperand := by decide

theorem State.aluToReg_z {s t : State} {op : Opcode} {l r : Word} {tl tr : Transform}
    {aop : AluOp} {d : Fin 4} (h : s.aluToReg op l r tl tr aop d = .next t) :
    t.z = decide (t.reg d = 0) := by
  obtain ⟨v, -, rfl⟩ := State.aluToReg_next h
  simp [zeroFlag_eq]

/-- Z of a completed ADD, SUB, MOD, INC or DEC is that of the word in its destination register. -/
theorem exec_z_of_definesFlag {i : Instr} {s t : State} {d : Fin 4} (hi : definesFlag i = true)
    (h : exec i s = .next t) (hd : destination i = some (gprOperand d)) :
    t.z = decide (t.reg d = 0) := by
  obtain ⟨op, l, r, tl, tr, aop, d', hd', h⟩ := exec_next_of_definesFlag hi h
  have hdd : d' = d := gprOperand_injective (Option.some.inj (hd'.symm.trans hd))
  subst hdd
  exact State.aluToReg_z h

theorem State.fetch_z {s t : State} {p : Payload} (h : s.fetch = .ok (p, t)) : t.z = s.z := by
  obtain ⟨-, -, -, rfl⟩ := State.fetch_eq_ok_iff.1 h
  exact s.fetched_z p

/-- HLT and a branch that is not taken keep Z. -/
theorem exec_z_of_hlt_or_untaken {i : Instr} {s t : State} {target : Word}
    (h : exec i s = .next t)
    (hi : i = .hlt ∨ (i = .be target ∧ s.z = false) ∨ (i = .bne target ∧ s.z = true)) :
    t.z = s.z := by
  obtain rfl | ⟨rfl, hz⟩ | ⟨rfl, hz⟩ := hi
  · rw [exec_hlt] at h
    cases h
    rfl
  · rw [exec_be_of_not_zero target hz] at h
    cases h
    rfl
  · rw [exec_bne_of_zero target hz] at h
    cases h
    rfl

/-! Each shared operation on a state with another Z, and then each instruction that is not a
conditional branch. -/

@[simp] theorem mapNext_next (f : State → State) (s : State) :
    mapNext f (.next s) = .next (f s) := rfl

/-- Checking a register operand does not depend on the state, so it passes to what follows. -/
theorem mapNext_withRegister (f : State → State) (w : Word) (k : Fin 4 → Result) :
    mapNext f (withRegister w k) = withRegister w fun i => mapNext f (k i) := by
  unfold withRegister
  cases regidx w <;> rfl

@[simp] theorem State.reg_withZ (s : State) (b : Bool) (i : Fin 4) :
    ({ s with z := b } : State).reg i = s.reg i := rfl

@[simp] theorem State.loadData_withZ (s : State) (b : Bool) (a : Int) :
    ({ s with z := b } : State).loadData a = s.loadData a := rfl

/-- A flag-updating ALU evaluation overwrites Z without reading it. -/
@[simp] theorem State.aluToReg_withZ (s : State) (b : Bool) (op : Opcode) (l r : Word)
    (tl tr : Transform) (aop : AluOp) (d : Fin 4) :
    ({ s with z := b } : State).aluToReg op l r tl tr aop d = s.aluToReg op l r tl tr aop d := rfl

@[simp] theorem State.forgetFlag_moveToReg_withZ (s : State) (b : Bool) (op : Opcode) (v : Word)
    (d : Fin 4) :
    (({ s with z := b } : State).moveToReg op v d).forgetFlag = (s.moveToReg op v d).forgetFlag :=
  rfl

theorem State.memWrite_withZ (s : State) (b : Bool) (a : Int) (v : Word) :
    ({ s with z := b } : State).memWrite a v =
      (s.memWrite a v).map fun t => { t with z := b } := by
  by_cases hin : 0 ≤ a ∧ a < s.params.memSize
  · rw [State.memWrite_of_inside (s := s) v hin.1 hin.2]
    exact State.memWrite_of_inside (s := { s with z := b }) v hin.1 hin.2
  · rw [State.memWrite_of_outside (s := s) v hin]
    exact State.memWrite_of_outside (s := { s with z := b }) v hin

/-- Z is no input of an instruction other than BE and BNE: with another Z before, nothing but the Z
after can differ. -/
theorem exec_withZ_of_not_readsFlag {i : Instr} (s : State) (b : Bool) (hi : readsFlag i = false) :
    mapNext State.forgetFlag (exec i { s with z := b }) =
      mapNext State.forgetFlag (exec i s) := by
  cases i with
  | add r1 r2 rres => simp only [exec, execAdd, State.reg_withZ, State.aluToReg_withZ]
  | sub r1 r2 rres => simp only [exec, execSub, State.reg_withZ, State.aluToReg_withZ]
  | mod r1 r2 rres => simp only [exec, execMod, State.reg_withZ, State.aluToReg_withZ]
  | inc r rres => simp only [exec, execInc, State.reg_withZ, State.aluToReg_withZ]
  | dec r rres => simp only [exec, execDec, State.reg_withZ, State.aluToReg_withZ]
  | ld addr rres =>
    simp only [exec, execLd, mapNext_withRegister, State.loadData_withZ]
    congr 1
    funext d
    cases s.loadData (effectiveAddress addr) <;> rfl
  | st r addr =>
    simp only [exec, execSt, mapNext_withRegister, State.reg_withZ, State.memWrite_withZ]
    congr 1
    funext a
    cases s.memWrite (effectiveAddress addr) (s.reg a) <;> rfl
  | mv r1 rres =>
    simp only [exec, execMv, mapNext_withRegister, mapNext_next, State.reg_withZ,
      State.forgetFlag_moveToReg_withZ]
  | be _ | bne _ => cases hi
  | jmp target => rfl
  | hlt => rfl

/-- Settles O29: the ALU writes Z of the word it latches, the fetch and a branch not taken keep Z,
and no shared operation but the branch's has Z as an input. -/
theorem flagWritersAndReaders : Obligations.FlagWritersAndReaders :=
  ⟨fun _ _ _ _ hi h hd => exec_z_of_definesFlag hi h hd,
    fun _ _ _ h => State.fetch_z h,
    fun _ _ _ _ h hi => exec_z_of_hlt_or_untaken h hi,
    fun _ s b hi => exec_withZ_of_not_readsFlag s b hi⟩

end Sys2Proof.Machine

/-! ## The run status (spec/10_state.md R22) -/

namespace Sys2Proof.Machine

theorem launch_status {image : List ImageCell} {p : Params} {regs : Vector Word 4} {z : Bool}
    {s : State} (h : launch image p regs z = .ok s) : s.status = .running := by
  obtain ⟨-, cells, -, rfl⟩ := launch_eq_ok h
  rfl

theorem State.aluToReg_status {s t : State} {op : Opcode} {l r : Word} {tl tr : Transform}
    {aop : AluOp} {d : Fin 4} (h : s.aluToReg op l r tl tr aop d = .next t) :
    t.status = s.status := by
  obtain ⟨v, -, rfl⟩ := State.aluToReg_next h
  rfl

theorem State.memWrite_status {s t : State} {a : Int} {v : Word} (h : s.memWrite a v = .ok t) :
    t.status = s.status := by
  obtain ⟨-, -, rfl⟩ := State.memWrite_eq_ok h
  rfl

@[simp] theorem State.branch_status (s : State) (op : Opcode) (taken : Bool) (target : Word) :
    (s.branch op taken target).status = s.status := by
  cases taken <;> rfl

theorem exec_status_of_definesFlag {i : Instr} {s t : State} (hi : definesFlag i = true)
    (h : exec i s = .next t) : t.status = s.status := by
  obtain ⟨_, _, _, _, _, _, _, -, h⟩ := exec_next_of_definesFlag hi h
  exact State.aluToReg_status h

/-- HLT halts; every other instruction that completes leaves the status as it was. -/
theorem exec_status {i : Instr} {s t : State} (h : exec i s = .next t) :
    t.status = if i = .hlt then .halted else s.status := by
  cases i with
  | add _ _ _ | sub _ _ _ | mod _ _ _ | inc _ _ | dec _ _ =>
    exact exec_status_of_definesFlag rfl h
  | ld addr rres =>
    obtain ⟨d, v, -, -, rfl⟩ := execLd_next h
    rfl
  | st r addr =>
    obtain ⟨a, u, -, hu, rfl⟩ := execSt_next h
    simpa using State.memWrite_status hu
  | mv r1 rres =>
    obtain ⟨a, d, -, -, rfl⟩ := execMv_next h
    rfl
  | be target =>
    cases h
    exact s.branch_status .be s.z target
  | bne target =>
    cases h
    exact s.branch_status .bne (!s.z) target
  | jmp target =>
    cases h
    rfl
  | hlt =>
    cases h
    rfl

theorem step_status {s t : State} (h : step s = .next t) :
    ∃ p i, s.Fetches p ∧ decodePayload p = .ok i ∧
      t.status = if i = .hlt then .halted else .running := by
  obtain ⟨p, i, u, hp, hi, hexec, rfl⟩ := step_next h
  have hstatus := exec_status hexec
  rw [State.fetched_status, hp.running] at hstatus
  exact ⟨p, i, hp, hi, hstatus⟩

theorem step_of_not_running {s : State} (h : s.status ≠ .running) :
    step s = .refused .runEnded := by
  cases hs : s.status with
  | running => exact absurd hs h
  | halted => simp only [step, hs]
  | faulted f => simp only [step, hs]

theorem status_of_step_fault {s : State} {f : Fault} (h : step s = .fault f) :
    s.status = .running := by
  by_contra hs
  rw [step_of_not_running hs] at h
  cases h

/-- Settles O36: of the instructions only HLT touches the status, and only a running state has a
cycle that can complete or fault. -/
theorem statusChangesOnlyAtTheEnd : Obligations.StatusChangesOnlyAtTheEnd :=
  ⟨fun _ _ _ _ _ h => launch_status h,
    fun _ _ h => step_status h,
    fun _ _ h => ⟨status_of_step_fault h, congrArg statusAfter h⟩,
    fun _ h => step_of_not_running h⟩

end Sys2Proof.Machine

/-! ## Conditional branches that are taken, and their ticks (spec/15_datapath_control.md R39) -/

namespace Sys2Proof.Machine

/-- A BE with Z = 1 costs its tick, transfers control and costs a further tick. -/
theorem exec_be_of_zero {s : State} (target : Word) (hz : s.z = true) :
    exec (.be target) s = .next (((s.tick (s.execTicks .be)).jumpTo .be target).tick 1) := by
  simp only [exec, execBe, State.branch, hz, if_true]

/-- A BNE with Z = 0 costs its tick, transfers control and costs a further tick. -/
theorem exec_bne_of_not_zero {s : State} (target : Word) (hz : s.z = false) :
    exec (.bne target) s = .next (((s.tick (s.execTicks .bne)).jumpTo .bne target).tick 1) := by
  simp only [exec, execBne, State.branch, hz, Bool.not_false, if_true]

theorem exec_be_tickCount {s t : State} {target : Word} (h : exec (.be target) s = .next t) :
    t.tickCount = s.tickCount + if s.z = true then 2 else 1 := by
  cases hz : s.z with
  | false => rw [exec_be_of_not_zero target hz] at h; cases h; rfl
  | true => rw [exec_be_of_zero target hz] at h; cases h; rfl

theorem exec_bne_tickCount {s t : State} {target : Word} (h : exec (.bne target) s = .next t) :
    t.tickCount = s.tickCount + if s.z = false then 2 else 1 := by
  cases hz : s.z with
  | false => rw [exec_bne_of_not_zero target hz] at h; cases h; rfl
  | true => rw [exec_bne_of_zero target hz] at h; cases h; rfl

/-- Settles O38: `EXEC_TICKS` of BE and BNE is 1, and the transfer is followed by one more tick. -/
theorem conditionalBranchTicks : Obligations.ConditionalBranchTicks :=
  fun _ _ _ => ⟨exec_be_tickCount, exec_bne_tickCount⟩

end Sys2Proof.Machine

/-! ## The reference micro-sequences and the rules (spec/15_datapath_control.md R43, R45)

A run of rows ends as `resultOf` says. A register operand is checked the same way on both sides
(`resultOf_regidx_bind`), and each row does what the named operation of its rule does; so the two
meanings agree operand by operand and row by row. -/

namespace Sys2Proof.Machine

/-- How a phase run by micro-sequences ends: with the state it leaves, or with its fatal condition. -/
def resultOf : Except Fault State → Result
  | .error f => raise f
  | .ok t => .next t

/-- Rows that stand, every register operand checked, are run. -/
theorem resultOf_rows (ms : List MicroStep) (s : State) :
    resultOf ((.ok ms : Except Fault (List MicroStep)) >>= s.microRun) =
      resultOf (s.microRun ms) := rfl

theorem microExec_eq_resultOf (i : Instr) (s : State) :
    microExec i s = resultOf (executeSequence i s >>= s.microRun) := by
  unfold microExec
  cases executeSequence i s with
  | error f => rfl
  | ok ms =>
    rw [resultOf_rows]
    dsimp only
    cases s.microRun ms <;> rfl

/-- The check of a register operand is the same before a micro-sequence and in a meaning. -/
theorem resultOf_regidx_bind (w : Word) (k : Fin 4 → Except Fault State) :
    resultOf (regidx w >>= k) = withRegister w fun a => resultOf (k a) := by
  unfold withRegister
  cases regidx w <;> rfl

theorem State.microRun_single (s : State) (m : MicroStep) : s.microRun [m] = s.microStep m := by
  unfold State.microRun
  cases s.microStep m <;> rfl

theorem State.resultOf_aluRow (s : State) (op : Opcode) (l r : BusSource) (tl tr : Transform)
    (aop : AluOp) (d : Fin 4) :
    resultOf (s.microStep (aluRow l r tl tr aop d (s.execTicks op))) =
      s.aluToReg op (s.bus l) (s.bus r) tl tr aop d := by
  rw [← State.microStep_aluRow]
  cases s.microStep (aluRow l r tl tr aop d (s.execTicks op)) <;> rfl

/-- The row of LD: the data read, then the ending LD shares with MV. -/
theorem State.microStep_loadRow {s : State} {addr : Word} (op : Opcode) (d : Fin 4)
    (h : s.literal 0 = addr) :
    s.microStep { mux := .literal 0, flag := .unspecified op, mem := .read, latch := gprLatch d,
                  ticks := s.execTicks op } =
      (s.loadData addr.toInt).map fun v => s.moveToReg op v d := by
  unfold State.microStep State.microValue State.muxOut State.loadData
  dsimp only
  rw [h]
  cases s.memRead addr.toInt with
  | error f => rfl
  | ok c => cases c <;> rfl

/-- The row of ST: the register on the left bus is stored at the literal address. -/
theorem State.microStep_storeRow {s : State} {addr : Word} (op : Opcode) (a : Fin 4)
    (h : s.literal 1 = addr) :
    s.microStep { left := gprSource a, mux := .literal 1, flag := .unspecified op, mem := .write,
                  ticks := s.execTicks op } =
      (s.memWrite addr.toInt (s.reg a)).map fun t =>
        (t.drawZ op (s.reg a)).tick (s.execTicks op) := by
  unfold State.microStep State.microValue State.muxOut
  dsimp only
  rw [h, State.bus_gprSource]
  cases s.memWrite addr.toInt (s.reg a) <;> rfl

/-- The row of MV: the register passes through the ALU unchanged. -/
theorem State.microStep_moveRow (s : State) (op : Opcode) (a d : Fin 4) :
    s.microStep { left := gprSource a, op := some .addFamily, flag := .unspecified op,
                  latch := gprLatch d, ticks := s.execTicks op } =
      .ok (s.moveToReg op (s.reg a) d) := by
  unfold State.microStep State.microValue State.muxOut
  dsimp only
  rw [State.bus_gprSource, show s.bus .undriven = 0 from rfl, aluResult_pass]
  rfl

/-- The two rows of a taken branch: one tick to evaluate the flag, then the row of the target. -/
theorem State.microRun_takenRows {s : State} {target : Word} (op : Opcode)
    (h : s.literal 0 = target) :
    s.microRun [{}, targetRow op 1] = .ok (((s.tick 1).jumpTo op target).tick 1) := by
  have htarget : (s.tick 1).literal 0 = target := h
  simp only [State.microRun, State.microStep_empty, State.microStep_targetRow op 1 htarget]

/-- The execute phase: with an instruction in the latch its micro-sequence does what its own rule
says. -/
theorem microExec_eq_exec {i : Instr} {s : State} {p : Payload} (hir : s.ir = some p)
    (hdecode : decodePayload p = .ok i) : microExec i s = exec i s := by
  have hliteral : ∀ k, s.literal k = i.operands.getD k 0 := State.literal_of_latch hir hdecode
  rw [microExec_eq_resultOf]
  cases i with
  | add _ _ _ | sub _ _ _ | mod _ _ _ | inc _ _ | dec _ _ =>
    simp only [executeSequence, bind_assoc, resultOf_regidx_bind, resultOf_rows,
      State.microRun_single, State.resultOf_aluRow, State.bus_gprSource]
    rfl
  | ld addr rres =>
    have haddr : s.literal 0 = addr := hliteral 0
    simp only [executeSequence, bind_assoc, resultOf_regidx_bind, resultOf_rows,
      State.microRun_single, State.microStep_loadRow .ld _ haddr, exec, execLd, effectiveAddress]
    cases s.loadData addr.toInt <;> rfl
  | st r addr =>
    have haddr : s.literal 1 = addr := hliteral 1
    simp only [executeSequence, bind_assoc, resultOf_regidx_bind, resultOf_rows,
      State.microRun_single, exec, execSt, effectiveAddress]
    congr 1
    funext a
    rw [State.microStep_storeRow .st a haddr]
    cases s.memWrite addr.toInt (s.reg a) <;> rfl
  | mv r1 rres =>
    simp only [executeSequence, bind_assoc, resultOf_regidx_bind, resultOf_rows,
      State.microRun_single, State.microStep_moveRow]
    rfl
  | be target =>
    cases hz : s.z with
    | false =>
      simp only [executeSequence, hz, Bool.false_eq_true, if_false, resultOf_rows,
        State.microRun_single, State.microStep_empty, exec_be_of_not_zero target hz]
      rfl
    | true =>
      simp only [executeSequence, hz, if_true, resultOf_rows,
        State.microRun_takenRows .be (hliteral 0), exec_be_of_zero target hz]
      rfl
  | bne target =>
    cases hz : s.z with
    | false =>
      simp only [executeSequence, hz, Bool.false_eq_true, if_false, resultOf_rows,
        State.microRun_takenRows .bne (hliteral 0), exec_bne_of_not_zero target hz]
      rfl
    | true =>
      simp only [executeSequence, hz, if_true, resultOf_rows, State.microRun_single,
        State.microStep_empty, exec_bne_of_zero target hz]
      rfl
  | jmp target =>
    have htarget : s.literal 0 = target := hliteral 0
    simp only [executeSequence, resultOf_rows, State.microRun_single,
      State.microStep_targetRow .jmp _ htarget]
    rfl
  | hlt => rfl

/-- The fetch phase: the two fetch rows are the fetch, but for the answer of what was latched. -/
theorem State.microRun_fetchSequence (s : State) :
    s.microRun fetchSequence = s.fetch.map Prod.snd := by
  simp only [fetchSequence, State.microRun, State.microStep_fetchRead,
    State.microStep_fetchIncrement]
  by_cases hin : 0 ≤ s.pc.toInt ∧ s.pc.toInt < s.params.memSize
  · rw [State.memRead_of_inside hin.1 hin.2]
    cases hcell : s.mem.read s.pc.toInt.toNat with
    | data v => rw [State.fetch_of_data hin.1 hin.2 hcell]; rfl
    | instr p => rw [State.fetch_eq_ok_iff.2 ⟨hin.1, hin.2, hcell, rfl⟩]; rfl
  · rw [State.memRead_of_outside hin, State.fetch_of_outside hin]; rfl

/-- Settles O48: the execute rows of each instruction by its operands' checks and its row's named
operation, the fetch rows by the cell at pc. -/
theorem microSequencesMeetTheRules : Obligations.MicroSequencesMeetTheRules := by
  refine ⟨fun i s p hir hdecode => microExec_eq_exec hir hdecode, fun s t => ?_, fun s f => ?_⟩
  · rw [State.microRun_fetchSequence]
    cases s.fetch with
    | error f => simp [Except.map]
    | ok r => simp [Except.map, Prod.ext_iff]
  · rw [State.microRun_fetchSequence]
    cases s.fetch <;> simp [Except.map]

end Sys2Proof.Machine

/-! ## One cycle: the fetch, then the decoded instruction (spec/15_datapath_control.md R36, R44) -/

namespace Sys2Proof.Machine

theorem State.Fetches.fetch_eq {s : State} {p : Payload} (h : s.Fetches p) :
    s.fetch = .ok (p, s.fetched p) :=
  State.fetch_eq_ok_iff.2 ⟨h.pcNonneg, h.pcInside, h.cell, rfl⟩

/-- A step that reaches the decode is the decoded instruction in the fetched state, then counted. -/
theorem step_of_fetches {s : State} {p : Payload} {i : Instr} (h : s.Fetches p)
    (hdecode : decodePayload p = .ok i) : step s = retireResult (exec i (s.fetched p)) := by
  have hceiling : s.ceilingReached = false := by simpa [State.ceilingReached] using h.belowLimit
  simp [step, h.running, cycle, hceiling, h.fetch_eq, decodeLatched_eq_ok_iff.2 hdecode]

theorem State.fetches_of_fetch_ok {s t : State} {p : Payload} (h : s.fetch = .ok (p, t))
    (hrun : s.status = .running) (hlimit : s.instrCount < s.params.stepLimit) : s.Fetches p := by
  obtain ⟨h0, h1, hcell, -⟩ := State.fetch_eq_ok_iff.1 h
  exact ⟨hrun, hlimit, h0, h1, hcell⟩

/-- A branch that is not taken leaves pc as it found it. -/
theorem exec_pc_of_untaken {s t : State} {target : Word}
    (h : (s.z = false ∧ exec (.be target) s = .next t) ∨
      (s.z = true ∧ exec (.bne target) s = .next t)) : t.pc = s.pc := by
  obtain ⟨hz, h⟩ | ⟨hz, h⟩ := h
  · rw [exec_be_of_not_zero target hz] at h; cases h; rfl
  · rw [exec_bne_of_zero target hz] at h; cases h; rfl

/-- Settles O30: a fetch that completes leaves the fetched state, and the step executes in it. -/
theorem fetchIncrementsPcAndKeepsFlag : Obligations.FetchIncrementsPcAndKeepsFlag := by
  intro s t p h
  obtain ⟨-, -, -, rfl⟩ := State.fetch_eq_ok_iff.1 h
  refine ⟨s.fetched_pc p, rfl, rfl, s.fetched_reg p, rfl, rfl, rfl, rfl, rfl, rfl, ?_, ?_⟩
  · intro hrun hlimit i hdecode
    exact step_of_fetches (State.fetches_of_fetch_ok h hrun hlimit) hdecode
  · intro target u hu
    exact (exec_pc_of_untaken hu).trans (s.fetched_pc p)

/-- Settles O31: the state named is the fetched one, and retirement adds 1 to `instr_count`. -/
theorem stepRunsDecodedInstruction : Obligations.StepRunsDecodedInstruction := by
  intro s p i h hdecode
  rw [step_of_fetches h hdecode]
  split
  all_goals
    rename_i hexec
    exact congrArg retireResult hexec

end Sys2Proof.Machine

/-! ## What a step counts (spec/15_datapath_control.md R35, R36, R40) -/

namespace Sys2Proof.Machine

/-- The retired count stays and no tick is taken back: what every instruction leaves to the cycle. -/
structure State.CountedFrom (s t : State) : Prop where
  instrCount : t.instrCount = s.instrCount
  tickCount : s.tickCount ≤ t.tickCount

@[simp] theorem State.branch_instrCount (s : State) (op : Opcode) (taken : Bool) (target : Word) :
    (s.branch op taken target).instrCount = s.instrCount := by
  cases taken <;> rfl

theorem exec_countedFrom {i : Instr} {s t : State} (h : exec i s = .next t) :
    s.CountedFrom t := by
  cases i with
  | add _ _ _ | sub _ _ _ | mod _ _ _ | inc _ _ | dec _ _ =>
    obtain ⟨_, _, _, _, _, _, _, -, h⟩ := exec_next_of_definesFlag rfl h
    obtain ⟨v, -, rfl⟩ := State.aluToReg_next h
    exact ⟨rfl, Nat.le_add_right ..⟩
  | ld addr rres =>
    obtain ⟨d, v, -, -, rfl⟩ := execLd_next h
    exact ⟨rfl, Nat.le_add_right ..⟩
  | st r addr =>
    obtain ⟨a, u, -, hu, rfl⟩ := execSt_next h
    obtain ⟨-, -, rfl⟩ := State.memWrite_eq_ok hu
    exact ⟨rfl, Nat.le_add_right ..⟩
  | mv r1 rres =>
    obtain ⟨a, d, -, -, rfl⟩ := execMv_next h
    exact ⟨rfl, Nat.le_add_right ..⟩
  | be target =>
    refine ⟨?_, by rw [exec_be_tickCount h]; exact Nat.le_add_right ..⟩
    cases h
    exact s.branch_instrCount .be s.z target
  | bne target =>
    refine ⟨?_, by rw [exec_bne_tickCount h]; exact Nat.le_add_right ..⟩
    cases h
    exact s.branch_instrCount .bne (!s.z) target
  | jmp target =>
    cases h
    exact ⟨rfl, Nat.le_add_right ..⟩
  | hlt =>
    cases h
    exact ⟨rfl, Nat.le_add_right ..⟩

/-- Settles O39: the fetch pays two ticks, the instruction takes none back, and the retirement alone
adds to `instr_count`. -/
theorem stepCountsInstructionAndTicks : Obligations.StepCountsInstructionAndTicks := by
  intro s t h
  obtain ⟨p, i, u, -, -, hexec, rfl⟩ := step_next h
  obtain ⟨hinstr, htick⟩ := exec_countedFrom hexec
  exact ⟨congrArg (· + 1) hinstr, htick⟩

end Sys2Proof.Machine

/-! ## The cell a store writes (spec/20_memory.md R63, R66; spec/41_data_movement.md R121) -/

namespace Sys2Proof.Machine

/-- The state a completed ST leaves: the word in its cell, Z unspecified, the ticks paid. -/
def State.stored (s : State) (k : Nat) (v : Word) : State :=
  (({ s with mem := s.mem.write k (.data v) } : State).drawZ .st v).tick (s.execTicks .st)

theorem State.stored_mem (s : State) (k : Nat) (v : Word) :
    (s.stored k v).mem = s.mem.write k (.data v) := rfl

theorem State.stored_params (s : State) (k : Nat) (v : Word) :
    (s.stored k v).params = s.params := rfl

theorem State.stored_read_same (s : State) (k : Nat) (v : Word) :
    (s.stored k v).mem.read k = .data v := by
  rw [State.stored_mem, Memory.read_write, if_pos rfl]

theorem State.stored_read_of_ne (s : State) {k a : Nat} (v : Word) (h : a ≠ k) :
    (s.stored k v).mem.read a = s.mem.read a := by
  rw [State.stored_mem, Memory.read_write, if_neg h]

theorem exec_st_of_inside {s : State} {addr : Word} (a : Fin 4) (h0 : 0 ≤ addr.toInt)
    (h1 : addr.toInt < s.params.memSize) :
    exec (.st (gprOperand a) addr) s = .next (s.stored addr.toInt.toNat (s.reg a)) := by
  simp only [exec, execSt, withRegister_gprOperand, effectiveAddress,
    State.memWrite_of_inside _ h0 h1]
  rfl

theorem exec_st_eq_stored {r addr : Word} {s t : State} (h : exec (.st r addr) s = .next t) :
    ∃ a, r = gprOperand a ∧ 0 ≤ addr.toInt ∧ addr.toInt < s.params.memSize ∧
      t = s.stored addr.toInt.toNat (s.reg a) := by
  obtain ⟨a, u, rfl, hu, rfl⟩ := execSt_next h
  obtain ⟨h0, h1, rfl⟩ := State.memWrite_eq_ok hu
  exact ⟨a, rfl, h0, h1, rfl⟩

@[simp] theorem State.branch_mem (s : State) (op : Opcode) (taken : Bool) (target : Word) :
    (s.branch op taken target).mem = s.mem := by
  cases taken <;> rfl

/-- Every instruction but ST leaves the memory as it was (spec/20_memory.md R63). -/
theorem exec_mem_of_storeAddress_none {i : Instr} {s t : State} (hi : storeAddress i = none)
    (h : exec i s = .next t) : t.mem = s.mem := by
  cases i with
  | add _ _ _ | sub _ _ _ | mod _ _ _ | inc _ _ | dec _ _ =>
    obtain ⟨_, _, _, _, _, _, _, -, h⟩ := exec_next_of_definesFlag rfl h
    obtain ⟨v, -, rfl⟩ := State.aluToReg_next h
    rfl
  | ld addr rres =>
    obtain ⟨d, v, -, -, rfl⟩ := execLd_next h
    rfl
  | st r addr => cases hi
  | mv r1 rres =>
    obtain ⟨a, d, -, -, rfl⟩ := execMv_next h
    rfl
  | be target =>
    cases h
    exact s.branch_mem .be s.z target
  | bne target =>
    cases h
    exact s.branch_mem .bne (!s.z) target
  | jmp target =>
    cases h
    rfl
  | hlt =>
    cases h
    rfl

/-- What an instruction that completes can do to memory: nothing, or it is an ST, whose one cell
becomes a data word. -/
theorem exec_mem_cases {i : Instr} {s t : State} (h : exec i s = .next t) :
    t.mem = s.mem ∨ ∃ r addr v, i = .st r addr ∧ 0 ≤ addr.toInt ∧
      t.mem = s.mem.write addr.toInt.toNat (.data v) := by
  cases hi : storeAddress i with
  | none => exact .inl (exec_mem_of_storeAddress_none hi h)
  | some _ =>
    cases i with
    | st r addr =>
      obtain ⟨a, -, h0, -, rfl⟩ := exec_st_eq_stored h
      exact .inr ⟨r, addr, s.reg a, rfl, h0, rfl⟩
    | add _ _ _ | sub _ _ _ | mod _ _ _ | inc _ _ | dec _ _ | ld _ _ | mv _ _ | be _ | bne _
    | jmp _ | hlt => cases hi

/-- What a step that completes can do to one cell: nothing, or the step is that of an ST to its
address, and the cell is a data word after it. The fetch and the retirement leave memory alone. -/
theorem step_read_cases {s t : State} (h : step s = .next t) (a : Nat) :
    t.mem.read a = s.mem.read a ∨ ∃ p r addr v, s.Fetches p ∧ decodePayload p = .ok (.st r addr) ∧
      addr.toInt = (a : Int) ∧ t.mem.read a = .data v := by
  obtain ⟨p, i, u, hp, hdecode, hexec, rfl⟩ := step_next h
  rw [State.retire_mem]
  rcases exec_mem_cases hexec with hmem | ⟨r, addr, v, rfl, h0, hmem⟩
  · exact .inl (congrArg (Memory.read · a) hmem)
  · rw [hmem, Memory.read_write]
    by_cases ha : a = addr.toInt.toNat
    · exact .inr ⟨p, r, addr, v, hp, hdecode, by omega, if_pos ha⟩
    · exact .inl (if_neg ha)

/-- Settles O43: a cell that a step changes is the one its ST names, and holds data after it. -/
theorem onlyStoresWriteAndOnlyData : Obligations.OnlyStoresWriteAndOnlyData := by
  intro s t h
  refine ⟨fun a q hq => ?_, fun a hne => ?_⟩
  · rcases step_read_cases h a with hsame | ⟨-, -, -, v, -, -, -, hdata⟩
    · exact hsame ▸ hq
    · rw [hdata] at hq
      cases hq
  · obtain ⟨p, r, addr, v, hp, hdecode, haddr, hdata⟩ := (step_read_cases h a).resolve_left hne
    exact ⟨p, r, addr, hp, hdecode, haddr, v, hdata⟩

/-- A data read of an address rests on the memory size and on the cell at that address alone. -/
theorem State.loadData_congr {s t : State} {k : Int} (hparams : t.params = s.params)
    (hread : 0 ≤ k → t.mem.read k.toNat = s.mem.read k.toNat) : t.loadData k = s.loadData k := by
  by_cases hin : 0 ≤ k ∧ k < s.params.memSize
  · simp only [State.loadData, State.memRead_of_inside hin.1 hin.2,
      State.memRead_of_inside hin.1 (hparams ▸ hin.2), hread hin.1]
  · rw [State.loadData_of_outside hin, State.loadData_of_outside (hparams ▸ hin)]

/-- Settles O14: the cell stored to holds the word, and no other address reaches that cell. -/
theorem loadSeesLatestStore : Obligations.LoadSeesLatestStore := by
  intro s t addr a h
  obtain ⟨b, hb, h0, h1, rfl⟩ := exec_st_eq_stored h
  obtain rfl := gprOperand_injective hb
  refine ⟨State.loadData_of_data h0 h1 (s.stored_read_same _ _), fun k hk => ?_⟩
  refine State.loadData_congr (s.stored_params _ _) fun hk0 => s.stored_read_of_ne _ ?_
  omega

/-- Settles O25: the stored state differs from the old one in its cell, Z, the draws and the ticks. -/
theorem frameOfStore : Obligations.FrameOfStore := by
  intro r addr s t h
  obtain ⟨b, -, h0, -, rfl⟩ := exec_st_eq_stored h
  refine ⟨fun _ => rfl, rfl, fun a ha => ?_, rfl, rfl, rfl, rfl⟩
  cases ha
  exact ⟨h0, fun _ hk => s.stored_read_of_ne _ hk⟩

end Sys2Proof.Machine

/-! ## The register LD and MV write (spec/41_data_movement.md R120, R122) -/

namespace Sys2Proof.Machine

@[simp] theorem State.moveToReg_pc (s : State) (op : Opcode) (v : Word) (d : Fin 4) :
    (s.moveToReg op v d).pc = s.pc :=
  s.setReg_pc d v

theorem State.moveToReg_reg_of_ne (s : State) (op : Opcode) {d j : Fin 4} (v : Word)
    (h : d ≠ j) : (s.moveToReg op v d).reg j = s.reg j :=
  s.setReg_reg_of_ne v h

/-- What LD and MV have in common: one that completes has moved a value into its destination. -/
theorem exec_next_of_ld_or_mv {i : Instr} {s t : State} (hi : i.opcode = .ld ∨ i.opcode = .mv)
    (h : exec i s = .next t) :
    ∃ op v d, destination i = some (gprOperand d) ∧ t = s.moveToReg op v d := by
  cases i with
  | ld addr rres =>
    obtain ⟨d, v, rfl, -, ht⟩ := execLd_next h
    exact ⟨_, v, d, rfl, ht⟩
  | mv r1 rres =>
    obtain ⟨a, d, -, rfl, ht⟩ := execMv_next h
    exact ⟨_, _, d, rfl, ht⟩
  | add _ _ _ | sub _ _ _ | mod _ _ _ | inc _ _ | dec _ _ | st _ _ | be _ | bne _ | jmp _
  | hlt => simp [Instr.opcode] at hi

/-- Settles O24: the value moved goes to the destination, and no other register, nor pc, is it. -/
theorem frameOfLoadAndMove : Obligations.FrameOfLoadAndMove := by
  intro i s t hi h
  obtain ⟨op, v, d, hd, rfl⟩ := exec_next_of_ld_or_mv hi h
  refine ⟨fun j hj => s.moveToReg_reg_of_ne op v ?_, s.moveToReg_pc op v d, fun _ => rfl, rfl, rfl,
    rfl, rfl⟩
  rintro rfl
  exact hj hd

end Sys2Proof.Machine

/-! ## LD and ST of a cell inside the memory (spec/41_data_movement.md R120, R121) -/

namespace Sys2Proof.Machine

/-- The value drawn for Z is one the spec allows (spec/10_state.md R16). -/
theorem State.unspecifiedZ_nonArithZ (s : State) (op : Opcode) (v : Word) :
    s.unspecifiedZ v (s.nonArithZ op v) :=
  ⟨s.nonArithZ_preserve op v, fun h => (s.nonArithZ_fromValue op v h).trans (zeroFlag_eq v)⟩

theorem exec_ld_of_data {s : State} {addr v : Word} (d : Fin 4) (h0 : 0 ≤ addr.toInt)
    (h1 : addr.toInt < s.params.memSize) (h : s.mem.read addr.toInt.toNat = .data v) :
    exec (.ld addr (gprOperand d)) s = .next (s.moveToReg .ld v d) := by
  simp only [exec, execLd, withRegister_gprOperand, effectiveAddress,
    State.loadData_of_data h0 h1 h]

/-- Settles O11: the state named is the one LD's ending leaves, with the Z it draws. -/
theorem ldLoadsDataCell : Obligations.LdLoadsDataCell :=
  fun s _ v d h0 h1 h => ⟨_, s.unspecifiedZ_nonArithZ .ld v, exec_ld_of_data d h0 h1 h⟩

/-- Settles O12: the state named is the stored one, with the Z it draws. -/
theorem stStoresDataCell : Obligations.StStoresDataCell :=
  fun s _ a h0 h1 =>
    ⟨_, _, s.unspecifiedZ_nonArithZ .st (s.reg a), s.stored_read_same _ _,
      fun _ hk => s.stored_read_of_ne _ hk, exec_st_of_inside a h0 h1⟩

end Sys2Proof.Machine


/-! ## The decode of a fetched cell (spec/30_encoding.md R85, R86, R91)

A record decodes exactly when its operand count is its opcode's arity, and a rejection of the decoder
is the fault of the step. -/

namespace Sys2Proof.Machine

theorem instrOf_of_arity {op : Opcode} {ops : List Word} (h : ops.length = op.arity) :
    ∃ i, instrOf op ops = some i ∧ i.toRecord = ⟨.known op, ops⟩ := by
  cases op with
  | add | sub | mod =>
    obtain ⟨_, _, _, rfl⟩ := List.length_eq_three.1 h
    exact ⟨_, rfl, rfl⟩
  | inc | dec | ld | st | mv =>
    obtain ⟨_, _, rfl⟩ := List.length_eq_two.1 h
    exact ⟨_, rfl, rfl⟩
  | be | bne | jmp =>
    obtain ⟨_, rfl⟩ := List.length_eq_one_iff.1 h
    exact ⟨_, rfl, rfl⟩
  | hlt =>
    obtain rfl := List.length_eq_zero_iff.1 h
    exact ⟨_, rfl, rfl⟩

theorem instrOf_of_not_arity {op : Opcode} {ops : List Word} (h : ops.length ≠ op.arity) :
    instrOf op ops = none := by
  cases op with
  | add | sub | mod =>
    match ops, h with
    | [], _ | [_], _ | [_, _], _ | _ :: _ :: _ :: _ :: _, _ => rfl
    | [_, _, _], h => exact absurd rfl h
  | inc | dec | ld | st | mv =>
    match ops, h with
    | [], _ | [_], _ | _ :: _ :: _ :: _, _ => rfl
    | [_, _], h => exact absurd rfl h
  | be | bne | jmp =>
    match ops, h with
    | [], _ | _ :: _ :: _, _ => rfl
    | [_], h => exact absurd rfl h
  | hlt =>
    match ops, h with
    | _ :: _, _ => rfl
    | [], h => exact absurd rfl h

theorem decodeRecord_of_arity {op : Opcode} {ops : List Word} (h : ops.length = op.arity) :
    ∃ i : Instr, decodeRecord ⟨.known op, ops⟩ = .ok i ∧ i.toRecord = ⟨.known op, ops⟩ := by
  obtain ⟨i, hi, hrecord⟩ := instrOf_of_arity h
  exact ⟨i, by simp only [decodeRecord, hi], hrecord⟩

theorem decodeRecord_of_not_arity {op : Opcode} {ops : List Word} (h : ops.length ≠ op.arity) :
    decodeRecord ⟨.known op, ops⟩ = .error (.malformedInstruction op (some ops.length)) := by
  simp only [decodeRecord, instrOf_of_not_arity h]

theorem decodeRecord_eq_malformed {r : Record} {op : Opcode} {count : Option Nat}
    (h : decodeRecord r = .error (.malformedInstruction op count)) :
    r.opcode = .known op ∧ count = some r.operands.length ∧ r.operands.length ≠ op.arity := by
  obtain ⟨field, ops⟩ := r
  cases field with
  | unknown name => cases h
  | known op' =>
    by_cases hlen : ops.length = op'.arity
    · obtain ⟨i, hi, -⟩ := decodeRecord_of_arity hlen
      rw [hi] at h
      cases h
    · rw [decodeRecord_of_not_arity hlen] at h
      cases h
      exact ⟨rfl, rfl, hlen⟩

theorem unpackOperands_length (f : Format) (w : BitVec 32) :
    (unpackOperands f w).length = f.arity := by
  cases f <;> rfl

/-- Everything a W32 word can unpack to: the record it packs, or one of two rejections. -/
theorem unpack_cases (w : BitVec 32) :
    (∃ op, unpack w = .ok ⟨.known op, unpackOperands op.format w⟩) ∨
    (∃ n, unpack w = .error (.unknownOpcode (.number n))) ∨
    (∃ op, unpack w = .error (.malformedInstruction op none)) := by
  unfold unpack
  split
  · exact .inr (.inl ⟨_, rfl⟩)
  · split
    · exact .inl ⟨_, rfl⟩
    · exact .inr (.inr ⟨_, rfl⟩)

/-- A packed word has its format's operands, so its rejection carries no count (log 8). -/
theorem decodeWord_eq_malformed {w : BitVec 32} {op : Opcode} {count : Option Nat}
    (h : decodeWord w = .error (.malformedInstruction op count)) : count = none := by
  obtain ⟨op', hw⟩ | ⟨n, hw⟩ | ⟨op', hw⟩ := unpack_cases w
  · obtain ⟨i, hi, -⟩ := decodeRecord_of_arity (unpackOperands_length op'.format w)
    simp only [decodeWord, hw, hi] at h
    cases h
  · simp only [decodeWord, hw] at h
    cases h
  · simp only [decodeWord, hw] at h
    cases h
    rfl

/-- Only a record is rejected with an operand count. -/
theorem decodePayload_eq_malformed {p : Payload} {op : Opcode} {n : Nat}
    (h : decodePayload p = .error (.malformedInstruction op (some n))) :
    ∃ ops, p = .record ⟨.known op, ops⟩ ∧ ops.length = n ∧ n ≠ op.arity := by
  cases p with
  | record r =>
    obtain ⟨field, ops⟩ := r
    obtain ⟨rfl, hcount, hlen⟩ := decodeRecord_eq_malformed h
    cases hcount
    exact ⟨ops, rfl, rfl, hlen⟩
  | word w => cases decodeWord_eq_malformed h

theorem faultOfDecode_eq_malformed {e : DecodeError} {op : Opcode} {count : Option Nat}
    (h : faultOfDecode e = .malformedInstruction op count) : e = .malformedInstruction op count := by
  cases e with
  | unknownOpcode _ => cases h
  | malformedInstruction _ _ => cases h; rfl

theorem State.ceilingReached_of_lt {s : State} (h : s.instrCount < s.params.stepLimit) :
    s.ceilingReached = false := by
  simpa [State.ceilingReached] using h

/-- A step that fetches what the decoder rejects raises that rejection's fatal condition. -/
theorem step_of_fetches_of_error {s : State} {p : Payload} {e : DecodeError} (h : s.Fetches p)
    (hdecode : decodePayload p = .error e) : step s = .fault (faultOfDecode e) := by
  simp [step, h.running, cycle, State.ceilingReached_of_lt h.belowLimit, h.fetch_eq,
    decodeLatched, hdecode, raise]

/-- Settles O34: the decoder tests the opcode of a record first. -/
theorem unknownOpcodeFaults : Obligations.UnknownOpcodeFaults :=
  fun _ _ _ h => step_of_fetches_of_error h rfl

end Sys2Proof.Machine

/-! ## What a running machine answers (spec/30_encoding.md R81, spec/60_exceptions.md R171)

A step from Running either faults before the decode, or it fetches a cell; past the decode every
instruction completes or raises a fatal condition that is not one of the decoder's. -/

namespace Sys2Proof.Machine

/-- The fatal conditions raised by decoding the cell fetched: F3 and F4 (spec/60_exceptions.md R171). -/
def Fault.ofDecoder : Fault → Bool
  | .malformedInstruction _ _ | .unknownOpcode _ => true
  | .memoryOutOfBounds _ | .registerIndexOutOfBounds _ | .stepLimitExceeded _ | .notAnInstruction _
  | .notADataCell _ | .divisionByZero => false

/-- The instruction has completed, or has raised a fatal condition that is not the decoder's. -/
def HasMeaning : Result → Prop
  | .next _ => True
  | .fault f => f.ofDecoder = false
  | .refused _ => False

theorem withRegister_hasMeaning {w : Word} {k : Fin 4 → Result} (h : ∀ i, HasMeaning (k i)) :
    HasMeaning (withRegister w k) := by
  by_cases hw : IsRegisterIndex w
  · obtain ⟨i, rfl⟩ := exists_gprOperand hw
    simpa using h i
  · rw [withRegister_of_not k hw]
    rfl

theorem aluResult_eq_error {c : ModConvention} {l r : Word} {tl tr : Transform} {op : AluOp}
    {f : Fault} (h : aluResult c l r tl tr op = .error f) : f = .divisionByZero := by
  cases op with
  | addFamily => cases h
  | modulo =>
    simp only [aluResult, modWord] at h
    split at h <;> cases h
    rfl

theorem State.aluToReg_hasMeaning (s : State) (op : Opcode) (l r : Word) (tl tr : Transform)
    (aop : AluOp) (d : Fin 4) : HasMeaning (s.aluToReg op l r tl tr aop d) := by
  cases hv : aluResult s.params.modConvention l r tl tr aop with
  | ok v =>
    rw [State.aluToReg_of_ok hv]
    trivial
  | error f =>
    rw [State.aluToReg_of_error hv, aluResult_eq_error hv]
    rfl

theorem execLd_hasMeaning (addr rres : Word) (s : State) : HasMeaning (execLd addr rres s) := by
  refine withRegister_hasMeaning fun d => ?_
  dsimp only [effectiveAddress]
  by_cases hin : 0 ≤ addr.toInt ∧ addr.toInt < s.params.memSize
  · cases hcell : s.mem.read addr.toInt.toNat with
    | data v =>
      rw [State.loadData_of_data hin.1 hin.2 hcell]
      trivial
    | instr p =>
      rw [State.loadData_of_instr hin.1 hin.2 hcell]
      rfl
  · rw [State.loadData_of_outside hin]
    rfl

theorem execSt_hasMeaning (r addr : Word) (s : State) : HasMeaning (execSt r addr s) := by
  refine withRegister_hasMeaning fun a => ?_
  dsimp only [effectiveAddress]
  by_cases hin : 0 ≤ addr.toInt ∧ addr.toInt < s.params.memSize
  · rw [State.memWrite_of_inside _ hin.1 hin.2]
    trivial
  · rw [State.memWrite_of_outside _ hin]
    rfl

/-- Each of the twelve instructions has its meaning (spec/30_encoding.md R81). -/
theorem exec_hasMeaning (i : Instr) (s : State) : HasMeaning (exec i s) := by
  cases i with
  | add _ _ _ | sub _ _ _ | mod _ _ _ =>
    exact withRegister_hasMeaning fun _ => withRegister_hasMeaning fun _ =>
      withRegister_hasMeaning fun _ => State.aluToReg_hasMeaning ..
  | inc _ _ | dec _ _ =>
    exact withRegister_hasMeaning fun _ => withRegister_hasMeaning fun _ =>
      State.aluToReg_hasMeaning ..
  | ld addr rres => exact execLd_hasMeaning addr rres s
  | st r addr => exact execSt_hasMeaning r addr s
  | mv _ _ => exact withRegister_hasMeaning fun _ => withRegister_hasMeaning fun _ => trivial
  | be _ | bne _ | jmp _ | hlt => trivial

theorem retireResult_hasMeaning {r : Result} (h : HasMeaning r) : HasMeaning (retireResult r) := by
  cases r <;> exact h

theorem step_of_ceiling {s : State} (hrun : s.status = .running)
    (h : s.params.stepLimit ≤ s.instrCount) : step s = .fault (.stepLimitExceeded s.instrCount) := by
  simp [step, hrun, cycle, State.ceilingReached, h, raise]

theorem step_of_fetch_error {s : State} {f : Fault} (hrun : s.status = .running)
    (hlimit : s.instrCount < s.params.stepLimit) (h : s.fetch = .error f) : step s = .fault f := by
  simp [step, hrun, cycle, State.ceilingReached_of_lt hlimit, h, raise]

/-- A running machine gets as far as the decode, or its step is a fatal condition of the ceiling or
of the fetch. -/
theorem fetches_or_step_hasMeaning {s : State} (hrun : s.status = .running) :
    (∃ p, s.Fetches p) ∨ HasMeaning (step s) := by
  by_cases hlimit : s.instrCount < s.params.stepLimit
  · by_cases hin : 0 ≤ s.pc.toInt ∧ s.pc.toInt < s.params.memSize
    · cases hcell : s.mem.read s.pc.toInt.toNat with
      | instr p => exact .inl ⟨p, hrun, hlimit, hin.1, hin.2, hcell⟩
      | data v =>
        rw [step_of_fetch_error hrun hlimit (State.fetch_of_data hin.1 hin.2 hcell)]
        exact .inr rfl
    · rw [step_of_fetch_error hrun hlimit (State.fetch_of_outside hin)]
      exact .inr rfl
  · rw [step_of_ceiling hrun (Nat.le_of_not_lt hlimit)]
    exact .inr rfl

/-- A step from Running has a meaning, unless it raises the decoder's rejection of the cell fetched. -/
theorem step_of_running {s : State} (hrun : s.status = .running) :
    HasMeaning (step s) ∨
      ∃ p e, s.Fetches p ∧ decodePayload p = .error e ∧ step s = .fault (faultOfDecode e) := by
  obtain ⟨p, hp⟩ | h := fetches_or_step_hasMeaning hrun
  · cases hdecode : decodePayload p with
    | ok i =>
      rw [step_of_fetches hp hdecode]
      exact .inl (retireResult_hasMeaning (exec_hasMeaning i _))
    | error e => exact .inr ⟨p, e, hp, hdecode, step_of_fetches_of_error hp hdecode⟩
  · exact .inl h

/-- Settles O37: neither an instruction's meaning nor a rejection of the decoder is a refusal. -/
theorem runningMachineIsNeverRefused : Obligations.RunningMachineIsNeverRefused := by
  intro s r hrun h
  obtain hm | ⟨p, e, -, -, hfault⟩ := step_of_running hrun
  · rw [h] at hm
    exact hm
  · rw [h] at hfault
    cases hfault

/-- A fault with an operand count is the decoder's rejection of a fetched record. -/
theorem fetches_of_step_malformed {s : State} {op : Opcode} {n : Nat}
    (h : step s = .fault (.malformedInstruction op (some n))) :
    ∃ ops, s.Fetches (.record ⟨.known op, ops⟩) ∧ ops.length = n ∧ n ≠ op.arity := by
  obtain hm | ⟨p, e, hp, hdecode, hfault⟩ := step_of_running (status_of_step_fault h)
  · rw [h] at hm
    cases hm
  · rw [h] at hfault
    injection hfault with hfault
    obtain rfl := faultOfDecode_eq_malformed hfault.symm
    obtain ⟨ops, rfl, hlen⟩ := decodePayload_eq_malformed hdecode
    exact ⟨ops, hp, hlen⟩

/-- Settles O35: the decoder accepts a record exactly when its operand count is the arity, and no
other part of the cycle raises a fault with a count. -/
theorem operandCountIsChecked : Obligations.OperandCountIsChecked :=
  ⟨fun _ _ h => decodeRecord_of_arity h,
    fun _ _ _ hp hlen => step_of_fetches_of_error hp (decodeRecord_of_not_arity hlen),
    fun _ _ _ h => fetches_of_step_malformed h⟩

end Sys2Proof.Machine

/-! ## The first illegal register operand (spec/10_state.md R13, spec/60_exceptions.md R173) -/

namespace Sys2Proof.Machine

/-- The check of one operand in front of the checks of the rest: the first illegal one of them all is
reported. -/
theorem withRegister_of_find? {r w : Word} {rs : List Word} {k : Fin 4 → Result}
    (h : (r :: rs).find? (fun r => !decide (IsRegisterIndex r)) = some w)
    (hk : ∀ i, rs.find? (fun r => !decide (IsRegisterIndex r)) = some w →
      k i = .fault (.registerIndexOutOfBounds w.toInt)) :
    withRegister r k = .fault (.registerIndexOutOfBounds w.toInt) := by
  by_cases hr : IsRegisterIndex r
  · obtain ⟨i, rfl⟩ := exists_gprOperand hr
    rw [withRegister_gprOperand]
    exact hk i (by rwa [List.find?_cons_of_neg (by simp [hr])] at h)
  · rw [List.find?_cons_of_pos (by rw [decide_eq_false hr, Bool.not_false])] at h
    cases h
    exact withRegister_of_not k hr

/-- The first illegal register operand of an instruction is fatal, before anything else of it is
tested. -/
theorem exec_of_find?_illegal {i : Instr} (s : State) {w : Word}
    (h : i.registerOperands.find? (fun r => !decide (IsRegisterIndex r)) = some w) :
    exec i s = .fault (.registerIndexOutOfBounds w.toInt) := by
  cases i with
  | add _ _ _ | sub _ _ _ | mod _ _ _ =>
    exact withRegister_of_find? h fun _ h => withRegister_of_find? h fun _ h =>
      withRegister_of_find? h fun _ h => nomatch h
  | inc _ _ | dec _ _ | mv _ _ =>
    exact withRegister_of_find? h fun _ h => withRegister_of_find? h fun _ h => nomatch h
  | ld _ _ | st _ _ => exact withRegister_of_find? h fun _ h => nomatch h
  | be _ | bne _ | jmp _ | hlt => cases h

theorem exec_of_not_wellFormed {i : Instr} (s : State) (h : ¬ i.WellFormed) :
    ∃ k, exec i s = .fault (.registerIndexOutOfBounds k) := by
  have hsome : (i.registerOperands.find? fun r => !decide (IsRegisterIndex r)).isSome := by
    simpa only [List.find?_isSome, Bool.not_eq_true', List.all_eq_true, not_forall, exists_prop,
      Bool.not_eq_true] using h
  obtain ⟨w, hw⟩ := Option.isSome_iff_exists.1 hsome
  exact ⟨w.toInt, exec_of_find?_illegal s hw⟩

end Sys2Proof.Machine

/-! ## The arithmetic instructions (spec/40_arithmetic.md R100, R102, R104, R105, R108)

An ALU result is latched with the flag of that result; SUB's result is zero exactly when its two inputs
are equal, and INC and DEC are differences with a constant. -/

namespace Sys2Proof.Machine

theorem wrap32_toInt_sub_toInt (l r : Word) : wrap32 (l.toInt - r.toInt) = l - r := by
  rw [wrap32, Int.sub_eq_add_neg, BitVec.ofInt_add, BitVec.ofInt_neg, BitVec.ofInt_toInt,
    BitVec.ofInt_toInt, sub_eq_add_neg]

/-- A difference of two words wraps to zero only where they are equal, overflow or not
(spec/40_arithmetic.md R102). -/
theorem wrap32_sub_eq_zero_iff (l r : Word) : wrap32 (l.toInt - r.toInt) = 0 ↔ l = r := by
  rw [wrap32_toInt_sub_toInt, sub_eq_zero]

/-- A word minus the value of a constant wraps to zero exactly where it has that value. -/
theorem wrap32_sub_toInt_eq_zero_iff (l r : Word) :
    wrap32 (l.toInt - r.toInt) = 0 ↔ l.toInt = r.toInt :=
  (wrap32_sub_eq_zero_iff l r).trans BitVec.toInt_inj.symm

/-- The whole next state of an ALU result `v` latched into a register, with Z by what `v = 0` says. -/
theorem State.aluToReg_eq_next {s : State} {op : Opcode} {l r v : Word} {tl tr : Transform}
    {aop : AluOp} {d : Fin 4} {p : Prop} [Decidable p]
    (hv : aluResult s.params.modConvention l r tl tr aop = .ok v) (hz : v = 0 ↔ p) :
    s.aluToReg op l r tl tr aop d =
      .next { s with
        x := s.x.set d.val v
        z := decide p
        tickCount := s.tickCount + s.execTicks op } := by
  rw [State.aluToReg_of_ok hv, zeroFlag_eq, decide_eq_decide.2 hz]
  rfl

/-- Settles O5: the ALU subtracts by adding the negated input, and the difference is zero exactly for
equal inputs. -/
theorem subWritesWrappedDifference : Obligations.SubWritesWrappedDifference := by
  refine ⟨fun s a b d => ?_, fun s _ _ _ h => exec_of_not_wellFormed s h⟩
  simp only [exec, execSub, withRegister_gprOperand]
  exact State.aluToReg_eq_next (aluResult_sub _ _ _) (wrap32_sub_eq_zero_iff _ _)

/-- Settles O9: the successor is the difference with -1. -/
theorem incWritesSuccessor : Obligations.IncWritesSuccessor := by
  refine ⟨fun s a d => ?_, fun s _ _ h => exec_of_not_wellFormed s h⟩
  simp only [exec, execInc, withRegister_gprOperand]
  exact State.aluToReg_eq_next (aluResult_inc _ _) (wrap32_sub_toInt_eq_zero_iff _ (-1))

/-- Settles O10: DEC is the subtraction of the constant 1. -/
theorem decWritesPredecessor : Obligations.DecWritesPredecessor := by
  refine ⟨fun s a d => ?_, fun s _ _ h => exec_of_not_wellFormed s h⟩
  simp only [exec, execDec, withRegister_gprOperand]
  exact State.aluToReg_eq_next (aluResult_sub _ _ 1) (wrap32_sub_toInt_eq_zero_iff _ 1)

/-- Settles O23: the ALU result goes to the destination, and no other register, nor pc, is it. -/
theorem frameOfArithmetic : Obligations.FrameOfArithmetic := by
  intro i s t hi h
  obtain ⟨op, l, r, tl, tr, aop, d, hd, h⟩ := exec_next_of_definesFlag hi h
  obtain ⟨v, -, rfl⟩ := State.aluToReg_next h
  refine ⟨fun j hj => State.setReg_reg_of_ne _ v ?_, State.setReg_pc _ d v, fun _ => rfl, rfl, rfl,
    rfl, rfl, rfl⟩
  rintro rfl
  exact hj hd

end Sys2Proof.Machine

/-! ## Transfers of control (spec/42_control_flow.md R130 to R134, R136)

A transfer writes pc and Z and costs ticks; a conditional branch makes one or only costs its tick. After a
SUB, Z says whether the sources were equal, and that is what the branch reads. -/

namespace Sys2Proof.Machine

theorem State.branch_pc (s : State) (op : Opcode) (taken : Bool) (target : Word) :
    (s.branch op taken target).pc = if taken = true then target else s.pc := by
  cases taken with
  | false => rfl
  | true => exact (s.tick (s.execTicks op)).setPc_pc target

theorem State.sameButControl_branch (s : State) (op : Opcode) (taken : Bool) (target : Word) :
    s.SameButControl (s.branch op taken target) := by
  cases taken with
  | false => exact ⟨fun _ => rfl, fun _ => rfl, rfl, rfl, rfl⟩
  | true =>
    exact ⟨fun j => (s.tick (s.execTicks op)).setPc_reg j target, fun _ => rfl, rfl, rfl, rfl⟩

theorem exec_sameButControl_of_transfersControl {i : Instr} {s t : State}
    (hi : transfersControl i = true) (h : exec i s = .next t) : s.SameButControl t := by
  cases i with
  | be target => cases h; exact s.sameButControl_branch .be s.z target
  | bne target => cases h; exact s.sameButControl_branch .bne (!s.z) target
  | jmp target => cases h; exact ⟨fun j => s.setPc_reg j target, fun _ => rfl, rfl, rfl, rfl⟩
  | add _ _ _ | sub _ _ _ | mod _ _ _ | inc _ _ | dec _ _ | ld _ _ | st _ _ | mv _ _ | hlt =>
    cases hi

theorem exec_status_of_transfersControl {i : Instr} {s t : State}
    (hi : transfersControl i = true) (h : exec i s = .next t) : t.status = s.status := by
  rw [exec_status h, if_neg]
  rintro rfl
  cases hi

/-- Of the state, a branch that is not taken changes the tick count alone. -/
theorem exec_untaken {i : Instr} {s t : State} {target : Word} (h : exec i s = .next t)
    (hi : (i = .be target ∧ s.z = false) ∨ (i = .bne target ∧ s.z = true)) : t = s.tick 1 := by
  obtain ⟨rfl, hz⟩ | ⟨rfl, hz⟩ := hi
  · rw [exec_be_of_not_zero target hz] at h; cases h; rfl
  · rw [exec_bne_of_zero target hz] at h; cases h; rfl

/-- Settles O17: a taken BE is a transfer of control with the Z it draws, between its two ticks. -/
theorem beBranchesWhenZero : Obligations.BeBranchesWhenZero :=
  fun s target => ⟨exec_be_of_not_zero target,
    fun hz => ⟨_, s.unspecifiedZ_nonArithZ .be target, exec_be_of_zero target hz⟩⟩

/-- Settles O18: a taken BNE is a transfer of control with the Z it draws, between its two ticks. -/
theorem bneBranchesWhenNotZero : Obligations.BneBranchesWhenNotZero :=
  fun s target => ⟨exec_bne_of_zero target,
    fun hz => ⟨_, s.unspecifiedZ_nonArithZ .bne target, exec_bne_of_not_zero target hz⟩⟩

/-- Settles O19: JMP is the transfer of control with the Z it draws, and its ticks. -/
theorem jmpLoadsTarget : Obligations.JmpLoadsTarget :=
  fun s target => ⟨_, s.unspecifiedZ_nonArithZ .jmp target, rfl⟩

/-- Settles O26: a transfer writes pc and Z and costs ticks, a branch not taken only costs its tick. -/
theorem frameOfTransfers : Obligations.FrameOfTransfers := by
  intro i s t hi h
  refine ⟨exec_sameButControl_of_transfersControl hi h, exec_status_of_transfersControl hi h, ?_⟩
  intro target huntaken
  obtain rfl := exec_untaken h huntaken
  exact ⟨rfl, rfl, rfl⟩

/-- A step that runs a conditional branch goes to the target when the branch is taken, and to the next
cell when it is not (spec/15_datapath_control.md R36). -/
theorem step_pc_of_branch {s : State} {p : Payload} {i : Instr} {op : Opcode} {taken : Bool}
    {target : Word} (h : s.Fetches p) (hdecode : decodePayload p = .ok i)
    (hexec : exec i (s.fetched p) = .next ((s.fetched p).branch op taken target)) :
    ∃ u, step s = .next u ∧
      u.pc = if taken = true then target else wrap32 (s.pc.toInt + 1) := by
  refine ⟨((s.fetched p).branch op taken target).retire, ?_, ?_⟩
  · rw [step_of_fetches h hdecode, hexec, retireResult]
  · rw [State.retire_pc, State.branch_pc, State.fetched_pc]

/-- Settles O21: SUB leaves in Z whether its sources were equal, and pc as it was; the fetch keeps Z,
and the branch goes by it. -/
theorem compareThenBranch : Obligations.CompareThenBranch := by
  intro s t a b d h
  obtain ⟨-, hpc, -⟩ := frameOfArithmetic _ s t rfl h
  have hz : t.z = decide (s.reg a = s.reg b) := by
    rw [subWritesWrappedDifference.1 s a b d] at h
    cases h
    rfl
  refine ⟨hz, fun _ _ hfetch => State.fetch_z hfetch, ?_, ?_⟩
  · intro q target hq hdecode
    obtain ⟨u, hstep, hu⟩ := step_pc_of_branch (op := .be) (taken := t.z) hq hdecode rfl
    exact ⟨u, hstep, by simpa [hz, hpc] using hu⟩
  · intro q target hq hdecode
    obtain ⟨u, hstep, hu⟩ := step_pc_of_branch (op := .bne) (taken := !t.z) hq hdecode rfl
    exact ⟨u, hstep, by simpa [hz, hpc] using hu⟩

end Sys2Proof.Machine

/-! ## What lowering keeps (spec/50_program_image_and_codegen.md R143, R144, R147 to R150)

Lowering changes the generator's state by four updates only: declare, emit, addLabel and resolve. Each
leads from a well-formed state to a well-formed state and never shortens the code, so every lowering
does. -/

namespace Sys2Proof.Machine

/-- The instructions lowering emits, with the operands it gives them (R146 to R150). -/
inductive SymInstr.Emittable : SymInstr → Prop
  | load (name : String) (d : Nat) : Emittable ⟨.ld, [.var name, .register d]⟩
  | store (r : Nat) (name : String) : Emittable ⟨.st, [.register r, .var name]⟩
  | arith (op : ArithOperator) (a b d : Nat) :
      Emittable ⟨arithOpcode op, [.register a, .register b, .register d]⟩
  | skip (op : RelOperator) (k : Nat) : Emittable ⟨skipOpcode op, [.label k]⟩
  | jump (k : Nat) : Emittable ⟨.jmp, [.label k]⟩

/-- What holds of the generator's state throughout: a name is declared once (R143), the code is of the
emitted forms, and a resolved label is a place in the code or its end (R144). -/
structure GenState.WellFormed (g : GenState) : Prop where
  names_nodup : (g.symbols.map Prod.fst).Nodup
  code_emittable : ∀ i ∈ g.code, i.Emittable
  labels_le : ∀ a, some a ∈ g.labels → a ≤ g.code.length

/-- The relation of every lowering: the code is not shortened (R145, append-only) and well-formedness is
kept. -/
structure GenState.LeadsTo (g g' : GenState) : Prop where
  length_le : g.code.length ≤ g'.code.length
  wellFormed : g.WellFormed → g'.WellFormed

theorem GenState.wellFormed_empty : ({} : GenState).WellFormed :=
  ⟨List.nodup_nil, by simp, by simp⟩

theorem GenState.LeadsTo.refl (g : GenState) : g.LeadsTo g := ⟨le_rfl, id⟩

theorem GenState.LeadsTo.trans {g g' g'' : GenState} (h : g.LeadsTo g') (h' : g'.LeadsTo g'') :
    g.LeadsTo g'' :=
  ⟨h.length_le.trans h'.length_le, h'.wellFormed ∘ h.wellFormed⟩

/-! ### The four updates -/

theorem GenState.not_declared_iff {g : GenState} {name : String} :
    ¬ g.declared name = true ↔ name ∉ g.symbols.map Prod.fst := by
  simp [GenState.declared, List.lookup_isSome_iff]

theorem GenState.declare_leadsTo (g : GenState) (name : String) (initial : Int) :
    g.LeadsTo (g.declare name initial) := by
  unfold GenState.declare
  split
  · exact .refl g
  next hnew =>
    refine ⟨le_rfl, fun h => ⟨?_, h.code_emittable, h.labels_le⟩⟩
    rw [List.map_append, List.map_singleton, ← List.concat_eq_append, List.nodup_concat]
    exact ⟨GenState.not_declared_iff.mp hnew, h.names_nodup⟩

theorem GenState.emit_leadsTo (g : GenState) {op : Opcode} {operands : List SymOperand}
    (hi : SymInstr.Emittable ⟨op, operands⟩) : g.LeadsTo (g.emit op operands) := by
  have hlen : g.code.length ≤ (g.emit op operands).code.length := by simp [GenState.emit]
  refine ⟨hlen, fun h =>
    ⟨h.names_nodup, fun i hmem => ?_, fun a ha => (h.labels_le a ha).trans hlen⟩⟩
  obtain hold | hnew := List.mem_append.mp hmem
  · exact h.code_emittable i hold
  · rwa [List.mem_singleton.mp hnew]

theorem GenState.addLabel_leadsTo (g : GenState) {entry : Option Nat}
    (he : ∀ a, entry = some a → a ≤ g.code.length) : g.LeadsTo (g.addLabel entry) := by
  refine ⟨le_rfl, fun h => ⟨h.names_nodup, h.code_emittable, fun a ha => ?_⟩⟩
  obtain hold | hnew := List.mem_append.mp ha
  · exact h.labels_le a hold
  · exact he a (List.mem_singleton.mp hnew).symm

theorem GenState.resolve_leadsTo (g : GenState) (k : Nat) : g.LeadsTo (g.resolve k) := by
  refine ⟨le_rfl, fun h => ⟨h.names_nodup, h.code_emittable, fun a ha => ?_⟩⟩
  obtain hold | hnew := List.mem_or_eq_of_mem_set ha
  · exact h.labels_le a hold
  · exact (Option.some.inj hnew).le

/-! ### The lowering functions -/

theorem lowerAtom_leadsTo {g g' : GenState} {dest : Nat} {e : Expression}
    (h : lowerAtom g dest e = .ok g') : g.LeadsTo g' := by
  cases e with
  | literal v =>
    cases h
    exact (g.declare_leadsTo _ v).trans (GenState.emit_leadsTo _ (.load _ dest))
  | variableRef name =>
    simp only [lowerAtom] at h
    split at h <;> cases h
    exact g.emit_leadsTo (.load name dest)
  | binary op l r => cases h

theorem lowerPair_leadsTo {g g' : GenState} {l r : Expression} (h : lowerPair g l r = .ok g') :
    g.LeadsTo g' := by
  unfold lowerPair at h
  split at h
  · cases h
  next g1 hl => exact (lowerAtom_leadsTo hl).trans (lowerAtom_leadsTo h)

theorem lowerExpression_leadsTo {g g' : GenState} {dest : Nat} {e : Expression}
    (h : lowerExpression g dest e = .ok g') : g.LeadsTo g' := by
  cases e with
  | literal v => exact lowerAtom_leadsTo (e := .literal v) h
  | variableRef name => exact lowerAtom_leadsTo (e := .variableRef name) h
  | binary op l r =>
    simp only [lowerExpression] at h
    split at h <;> cases h
    next g1 hpair => exact (lowerPair_leadsTo hpair).trans (g1.emit_leadsTo (.arith op 1 2 dest))

theorem lowerCondition_leadsTo {g g' : GenState} {c : Condition} (h : lowerCondition g c = .ok g') :
    g.LeadsTo g' := by
  unfold lowerCondition at h
  split at h <;> cases h
  next g1 hpair => exact (lowerPair_leadsTo hpair).trans (g1.emit_leadsTo (.arith .minus 1 2 0))

theorem storeAssignment_leadsTo {g g' : GenState} {name : String} {value : Expression}
    (h : storeAssignment g name value = .ok g') : g.LeadsTo g' := by
  unfold storeAssignment at h
  split at h <;> cases h
  next g1 hvalue => exact (lowerExpression_leadsTo hvalue).trans (g1.emit_leadsTo (.store 0 name))

theorem lowerAssign_leadsTo {g g' : GenState} {name : String} {value : Expression}
    (h : lowerAssign g name value = .ok g') : g.LeadsTo g' := by
  unfold lowerAssign at h
  split at h
  · exact storeAssignment_leadsTo h
  · cases value with
    | literal v =>
      cases h
      exact g.declare_leadsTo name v
    | variableRef other => exact (g.declare_leadsTo name 0).trans (storeAssignment_leadsTo h)
    | binary op l r => exact (g.declare_leadsTo name 0).trans (storeAssignment_leadsTo h)

/-- The forward label of a condition and the branch over the body that waits for it (R149, R150). -/
theorem GenState.emit_skip_leadsTo (g : GenState) (op : RelOperator) (k : Nat) :
    g.LeadsTo ((g.addLabel none).emit (skipOpcode op) [.label k]) :=
  (g.addLabel_leadsTo (by simp)).trans (GenState.emit_leadsTo _ (.skip op k))

theorem lowerStatement_leadsTo {program : Statement} {g g' : GenState}
    (h : lowerStatement program g = .ok g') : g.LeadsTo g' := by
  induction program generalizing g g' with
  | assign name value => exact lowerAssign_leadsTo h
  | empty =>
    cases h
    exact .refl g
  | seq first rest ihFirst ihRest =>
    simp only [lowerStatement] at h
    split at h
    · cases h
    next g1 hfirst => exact (ihFirst hfirst).trans (ihRest h)
  | ifThen c body ih =>
    simp only [lowerStatement] at h
    split at h
    · cases h
    next g1 hcond =>
      split at h <;> cases h
      next g2 hbody =>
        exact (lowerCondition_leadsTo hcond).trans <| (g1.emit_skip_leadsTo c.op _).trans <|
          (ih hbody).trans (g2.resolve_leadsTo _)
  | whileDo c body ih =>
    simp only [lowerStatement] at h
    split at h
    · cases h
    next g1 hcond =>
      split at h <;> cases h
      next g2 hbody =>
        have hskip := (lowerCondition_leadsTo hcond).trans (g1.emit_skip_leadsTo c.op g1.labels.length)
        have hback := GenState.addLabel_leadsTo (entry := some g.code.length) _
          (by rintro _ ⟨⟩; exact hskip.length_le)
        exact hskip.trans <| hback.trans <| (ih hbody).trans <|
          (g2.emit_leadsTo (.jump _)).trans (GenState.resolve_leadsTo _ _)

end Sys2Proof.Machine

/-! ## What linking answers (spec/50_program_image_and_codegen.md R151)

Linking keeps each opcode and replaces each operand by the integer `linkOperand` answers for it. -/

namespace Sys2Proof.Machine

/-- A linked instruction: the opcode of the emitted one and, operand by operand, what `linkOperand`
answers. -/
def SymInstr.LinksTo (g : GenState) (n : Nat) (i : SymInstr) (e : Opcode × List Int) : Prop :=
  i.op = e.1 ∧ List.Forall₂ (fun o a => linkOperand g n o = .ok (.int a)) i.operands e.2

/-- The cell of a linked instruction. -/
def linkedCell (e : Opcode × List Int) : ImageCell :=
  .instr (.known e.1) (e.2.map ImageOperand.int)

theorem linkOperand_var {g : GenState} {n : Nat} {name : String} {a : Int}
    (h : linkOperand g n (.var name) = .ok (.int a)) :
    ∃ d, symbolIndex g.symbols name = some d ∧ a = (n + d : Nat) := by
  simp only [linkOperand] at h
  split at h <;> cases h
  next d hd => exact ⟨d, hd, rfl⟩

theorem linkOperand_label {g : GenState} {n k : Nat} {a : Int}
    (h : linkOperand g n (.label k) = .ok (.int a)) :
    ∃ t : Nat, g.labels[k]? = some (some t) ∧ a = t := by
  simp only [linkOperand] at h
  split at h <;> cases h
  next t ht => exact ⟨t, ht, rfl⟩

theorem symbolIndex_lt {symbols : List (String × Int)} {name : String} {d : Nat}
    (h : symbolIndex symbols name = some d) : d < symbols.length :=
  (List.findIdx?_eq_some_iff_getElem.mp h).1

theorem linkOperand_isInt {g : GenState} {n : Nat} {o : SymOperand} {v : ImageOperand}
    (h : linkOperand g n o = .ok v) : ∃ a, v = .int a := by
  cases o <;> simp only [linkOperand] at h
  case register i => exact ⟨i, (Except.ok.inj h).symm⟩
  all_goals
    split at h <;> cases h
    exact ⟨_, rfl⟩

theorem linkOperands_eq_ok {g : GenState} {n : Nat} {os : List SymOperand} {vs : List ImageOperand}
    (h : linkOperands g n os = .ok vs) :
    ∃ as : List Int, vs = as.map ImageOperand.int ∧
      List.Forall₂ (fun o a => linkOperand g n o = .ok (.int a)) os as := by
  induction os generalizing vs with
  | nil =>
    cases h
    exact ⟨[], rfl, .nil⟩
  | cons o rest ih =>
    simp only [linkOperands] at h
    split at h
    · cases h
    next v hv =>
      split at h <;> cases h
      next ws hws =>
        obtain ⟨a, rfl⟩ := linkOperand_isInt hv
        obtain ⟨as, rfl, has⟩ := ih hws
        exact ⟨a :: as, rfl, .cons hv has⟩

/-- Linking the emitted code and the HLT after it (R151). -/
theorem linkCode_append_hlt {g : GenState} {n : Nat} {is : List SymInstr} {cells : List ImageCell}
    (h : linkCode g n (is ++ [⟨.hlt, []⟩]) = .ok cells) :
    ∃ code : List (Opcode × List Int), cells = code.map linkedCell ++ [.instr (.known .hlt) []] ∧
      List.Forall₂ (SymInstr.LinksTo g n) is code := by
  induction is generalizing cells with
  | nil =>
    cases h
    exact ⟨[], rfl, .nil⟩
  | cons i rest ih =>
    simp only [List.cons_append, linkCode] at h
    split at h
    · cases h
    next vs hvs =>
      split at h <;> cases h
      next cs hcs =>
        obtain ⟨as, rfl, has⟩ := linkOperands_eq_ok hvs
        obtain ⟨code, rfl, hcode⟩ := ih hcs
        exact ⟨(i.op, as) :: code, rfl, .cons ⟨rfl, has⟩ hcode⟩

/-- The three parts of an image the generator gives (R140). -/
theorem generate_eq_ok {program : Statement} {image : List ImageCell}
    (h : generate program = .ok image) :
    ∃ (g : GenState) (code : List (Opcode × List Int)), lowerStatement program {} = .ok g ∧
      image = code.map linkedCell ++ [.instr (.known .hlt) []] ++
        g.symbols.map (fun e => ImageCell.data e.2) ∧
      List.Forall₂ (SymInstr.LinksTo g (g.code.length + 1)) g.code code := by
  unfold generate at h
  split at h
  · cases h
  next g hg =>
    unfold link at h
    split at h <;> cases h
    next cells hcells =>
      obtain ⟨code, rfl, hcode⟩ := linkCode_append_hlt hcells
      exact ⟨g, code, hg, rfl, hcode⟩

end Sys2Proof.Machine

/-! ## The layout of a generated image (spec/50_program_image_and_codegen.md R140, R141, R152)

A variable's name links into the data segment, and a label links to an instruction address; each
emitted form has a name for the address of LD and ST, and a label for the target of a branch. -/

namespace Sys2Proof.Machine

/-- R152 (a), (e), (f) for one linked instruction, in an image of `m` emitted instructions and `v`
variables. -/
def InSegments (m v : Nat) (e : Opcode × List Int) : Prop :=
  generatedOpcode e.1 = true ∧ e.2.length = e.1.arity ∧
    ((e.1 = .be ∨ e.1 = .bne ∨ e.1 = .jmp) → ∀ a ∈ e.2, 0 ≤ a ∧ a ≤ m) ∧
    (e.1 = .ld → ∀ a, e.2.head? = some a → m + 1 ≤ a ∧ a < m + 1 + v) ∧
    (e.1 = .st → ∀ a, e.2.getLast? = some a → m + 1 ≤ a ∧ a < m + 1 + v)

theorem linkOperand_var_inDataSegment {g : GenState} {m : Nat} {name : String} {a : Int}
    (h : linkOperand g (m + 1) (.var name) = .ok (.int a)) :
    m + 1 ≤ a ∧ a < m + 1 + g.symbols.length := by
  obtain ⟨d, hd, rfl⟩ := linkOperand_var h
  have := symbolIndex_lt hd
  omega

theorem GenState.WellFormed.linkOperand_label_inCode {g : GenState} (hg : g.WellFormed) {n k : Nat}
    {a : Int} (h : linkOperand g n (.label k) = .ok (.int a)) : 0 ≤ a ∧ a ≤ g.code.length := by
  obtain ⟨t, ht, rfl⟩ := linkOperand_label h
  have := hg.labels_le t (List.mem_of_getElem? ht)
  omega

theorem SymInstr.Emittable.generatedOpcode_and_arity {i : SymInstr} (h : i.Emittable) :
    generatedOpcode i.op = true ∧ i.operands.length = i.op.arity := by
  cases h with
  | load name d => exact ⟨rfl, rfl⟩
  | store r name => exact ⟨rfl, rfl⟩
  | arith op a b d => cases op <;> exact ⟨rfl, rfl⟩
  | skip op k => cases op <;> exact ⟨rfl, rfl⟩
  | jump k => exact ⟨rfl, rfl⟩

theorem GenState.WellFormed.inSegments_of_linksTo {g : GenState} (hg : g.WellFormed) {i : SymInstr}
    {e : Opcode × List Int} (hi : i.Emittable) (h : i.LinksTo g (g.code.length + 1) e) :
    InSegments g.code.length g.symbols.length e := by
  obtain ⟨op, as⟩ := e
  obtain ⟨rfl, hops⟩ := h
  obtain ⟨hgen, harity⟩ := hi.generatedOpcode_and_arity
  refine ⟨hgen, hops.length_eq.symm.trans harity, ?_⟩
  cases hi with
  | load name d =>
    obtain _ | ⟨haddr, _ | ⟨-, _ | _⟩⟩ := hops
    simpa using linkOperand_var_inDataSegment haddr
  | store r name =>
    obtain _ | ⟨-, _ | ⟨haddr, _ | _⟩⟩ := hops
    simpa using linkOperand_var_inDataSegment haddr
  | arith op a b d => cases op <;> simp [arithOpcode]
  | skip op k =>
    obtain _ | ⟨htarget, _ | _⟩ := hops
    cases op <;> simpa [skipOpcode] using hg.linkOperand_label_inCode htarget
  | jump k =>
    obtain _ | ⟨htarget, _ | _⟩ := hops
    simpa using hg.linkOperand_label_inCode htarget

/-- The entry of the right list that answers to one of the left. -/
theorem exists_getElem?_of_forall₂ {α β : Type} {R : α → β → Prop} {xs : List α} {ys : List β}
    (h : List.Forall₂ R xs ys) {k : Nat} {x : α} (hx : xs[k]? = some x) :
    ∃ y, ys[k]? = some y ∧ R x y := by
  obtain ⟨hk, rfl⟩ := List.getElem?_eq_some_iff.mp hx
  have hk' : k < ys.length := h.length_eq ▸ hk
  exact ⟨ys[k], List.getElem?_eq_getElem hk', h.get hk hk'⟩

/-- Settles O54: lowering leads from the empty state to a well-formed one, and linking takes each emitted
instruction to one that lies in its segments. -/
theorem generatedImageLayout : Obligations.GeneratedImageLayout := by
  intro program image h
  obtain ⟨g, code, hlower, himage, hlinks⟩ := generate_eq_ok h
  have hg : g.WellFormed := (lowerStatement_leadsTo hlower).wellFormed GenState.wellFormed_empty
  have hlen : g.code.length = code.length := hlinks.length_eq
  refine ⟨g, code, hlower, himage, hg.names_nodup, ?_, ?_, ?_⟩
  · have hops : List.Forall₂ (· = ·) (g.code.map SymInstr.op) (code.map Prod.fst) :=
      List.forall₂_map_left_iff.mpr (List.forall₂_map_right_iff.mpr (hlinks.imp fun _ _ hl => hl.1))
    exact (List.forall₂_eq_eq_eq ▸ hops).symm
  · intro k j i e name hi he hname
    obtain ⟨e', he', -, hoperands⟩ := exists_getElem?_of_forall₂ hlinks hi
    obtain rfl : e' = e := Option.some.inj (he'.symm.trans he)
    obtain ⟨a, ha, hlink⟩ := exists_getElem?_of_forall₂ hoperands hname
    obtain ⟨d, hd, rfl⟩ := linkOperand_var hlink
    exact ⟨d, hd, hlen ▸ ha⟩
  · intro e he
    obtain ⟨k, hk⟩ := List.mem_iff_getElem?.mp he
    obtain ⟨i, hi, hl⟩ := exists_getElem?_of_forall₂ hlinks.flip hk
    have hin := hg.inSegments_of_linksTo (hg.code_emittable i (List.mem_of_getElem? hi)) hl
    rwa [hlen] at hin

end Sys2Proof.Machine

/-! ## Ticks are accounting only (spec/15_datapath_control.md R38, spec/70_reset_and_hazards.md R197)

No shared operation reads the tick count or the execute ticks but to add to the tick count. So each
does the same, timing apart, in a state and in that state with its timing set aside; and with them the
instructions, the fetch and the cycle. -/

namespace Sys2Proof.Machine

@[simp] theorem State.forgetTiming_reg (s : State) (i : Fin 4) :
    s.forgetTiming.reg i = s.reg i := rfl

@[simp] theorem State.forgetTiming_loadData (s : State) (a : Int) :
    s.forgetTiming.loadData a = s.loadData a := rfl

@[simp] theorem State.forgetTiming_moveToReg (s : State) (op : Opcode) (v : Word) (d : Fin 4) :
    (s.forgetTiming.moveToReg op v d).forgetTiming = (s.moveToReg op v d).forgetTiming := rfl

theorem State.forgetTiming_branch (s : State) (op : Opcode) (taken : Bool) (target : Word) :
    (s.forgetTiming.branch op taken target).forgetTiming =
      (s.branch op taken target).forgetTiming := by
  cases taken <;> rfl

theorem State.forgetTiming_memWrite (s : State) (a : Int) (v : Word) :
    s.forgetTiming.memWrite a v = (s.memWrite a v).map State.forgetTiming := by
  by_cases hin : 0 ≤ a ∧ a < s.params.memSize
  · rw [State.memWrite_of_inside (s := s) v hin.1 hin.2]
    exact State.memWrite_of_inside (s := s.forgetTiming) v hin.1 hin.2
  · rw [State.memWrite_of_outside (s := s) v hin]
    exact State.memWrite_of_outside (s := s.forgetTiming) v hin

theorem State.mapNext_forgetTiming_aluToReg (s : State) (op : Opcode) (l r : Word)
    (tl tr : Transform) (aop : AluOp) (d : Fin 4) :
    mapNext State.forgetTiming (s.forgetTiming.aluToReg op l r tl tr aop d) =
      mapNext State.forgetTiming (s.aluToReg op l r tl tr aop d) := by
  cases hv : aluResult s.params.modConvention l r tl tr aop with
  | ok v =>
    rw [State.aluToReg_of_ok (s := s) hv, State.aluToReg_of_ok (s := s.forgetTiming) hv]
    rfl
  | error f =>
    rw [State.aluToReg_of_error (s := s) hv, State.aluToReg_of_error (s := s.forgetTiming) hv]

theorem mapNext_forgetTiming_exec (i : Instr) (s : State) :
    mapNext State.forgetTiming (exec i s.forgetTiming) =
      mapNext State.forgetTiming (exec i s) := by
  cases i with
  | add _ _ _ | sub _ _ _ | mod _ _ _ | inc _ _ | dec _ _ =>
    simp only [exec, execAdd, execSub, execMod, execInc, execDec, mapNext_withRegister,
      State.forgetTiming_reg, State.mapNext_forgetTiming_aluToReg]
  | ld addr rres =>
    simp only [exec, execLd, mapNext_withRegister, State.forgetTiming_loadData]
    congr 1
    funext d
    cases s.loadData (effectiveAddress addr) <;> rfl
  | st r addr =>
    simp only [exec, execSt, mapNext_withRegister, State.forgetTiming_reg,
      State.forgetTiming_memWrite]
    congr 1
    funext a
    cases s.memWrite (effectiveAddress addr) (s.reg a) <;> rfl
  | mv r1 rres =>
    simp only [exec, execMv, mapNext_withRegister, mapNext_next, State.forgetTiming_reg,
      State.forgetTiming_moveToReg]
  | be target => exact congrArg Host.Outcome.next (s.forgetTiming_branch .be s.z target)
  | bne target => exact congrArg Host.Outcome.next (s.forgetTiming_branch .bne (!s.z) target)
  | jmp target => rfl
  | hlt => rfl

/-- Two states that differ in their timing only execute an instruction alike. -/
theorem mapNext_exec_congr_of_forgetTiming (i : Instr) {s t : State}
    (h : s.forgetTiming = t.forgetTiming) :
    mapNext State.forgetTiming (exec i s) = mapNext State.forgetTiming (exec i t) := by
  rw [← mapNext_forgetTiming_exec i s, h, mapNext_forgetTiming_exec]

theorem State.fetched_forgetTiming (s : State) (p : Payload) :
    (s.forgetTiming.fetched p).forgetTiming = (s.fetched p).forgetTiming := rfl

/-- Both fetches complete with the same payload, or both raise the same fatal condition. -/
theorem State.fetch_forgetTiming_cases (s : State) :
    (∃ p, s.fetch = .ok (p, s.fetched p) ∧
      s.forgetTiming.fetch = .ok (p, s.forgetTiming.fetched p)) ∨
    ∃ f, s.fetch = .error f ∧ s.forgetTiming.fetch = .error f := by
  by_cases hin : 0 ≤ s.pc.toInt ∧ s.pc.toInt < s.params.memSize
  · cases hcell : s.mem.read s.pc.toInt.toNat with
    | instr p =>
      exact .inl ⟨p, State.fetch_eq_ok_iff.mpr ⟨hin.1, hin.2, hcell, rfl⟩,
        State.fetch_eq_ok_iff.mpr ⟨hin.1, hin.2, hcell, rfl⟩⟩
    | data v =>
      exact .inr ⟨_, State.fetch_of_data hin.1 hin.2 hcell,
        State.fetch_of_data (s := s.forgetTiming) hin.1 hin.2 hcell⟩
  · exact .inr ⟨_, State.fetch_of_outside hin, State.fetch_of_outside (s := s.forgetTiming) hin⟩

theorem mapNext_forgetTiming_retireResult (r : Result) :
    mapNext State.forgetTiming (retireResult r) =
      retireResult (mapNext State.forgetTiming r) := by
  cases r <;> rfl

theorem mapNext_forgetTiming_cycle (s : State) :
    mapNext State.forgetTiming (cycle s.forgetTiming) =
      mapNext State.forgetTiming (cycle s) := by
  have hceiling : s.forgetTiming.ceilingReached = s.ceilingReached := rfl
  unfold cycle
  rw [hceiling]
  split
  · rfl
  · obtain ⟨p, hs, hforget⟩ | ⟨f, hs, hforget⟩ := s.fetch_forgetTiming_cases
    · rw [hs, hforget]
      dsimp only
      cases decodeLatched p with
      | error f => rfl
      | ok i =>
        simp only [mapNext_forgetTiming_retireResult,
          mapNext_exec_congr_of_forgetTiming i (s.fetched_forgetTiming p)]
    · rw [hs, hforget]

theorem mapNext_forgetTiming_step (s : State) :
    mapNext State.forgetTiming (step s.forgetTiming) =
      mapNext State.forgetTiming (step s) := by
  cases hs : s.status with
  | running =>
    have hforget : s.forgetTiming.status = .running := hs
    simpa only [step, hs, hforget] using mapNext_forgetTiming_cycle s
  | halted | faulted _ =>
    have hend : s.status ≠ .running := by simp [hs]
    rw [step_of_not_running hend, step_of_not_running (s := s.forgetTiming) hend]

/-- Settles O47: the two states are the same with their timing set aside, and a step is the same in
either of them as in that one. -/
theorem ticksChangeNothingElse : Obligations.TicksChangeNothingElse := by
  intro s k e
  have h := mapNext_forgetTiming_step
    { s with tickCount := k, params := { s.params with execTicks := e } }
  exact h.symm.trans (mapNext_forgetTiming_step s)

end Sys2Proof.Machine

/-! ## The compare before each conditional branch (spec/50_program_image_and_codegen.md R146, R152 (d))

Code is append-only (R145), and a stretch of it whose conditional branches each stand right behind
their compare stays so when another such stretch follows. Every lowering appends one; linking changes
no opcode and no register operand, so the image keeps the flag protocol. -/

namespace Sys2Proof.Machine

/-- BE or BNE: the opcodes that read the flag (spec/70_reset_and_hazards.md R193). -/
abbrev IsConditionalBranch (op : Opcode) : Prop := op = .be ∨ op = .bne

/-- The compare of a condition, `SUB 1, 2, 0`, before linking (R146). -/
def compareInstr : SymInstr := ⟨.sub, [.register 1, .register 2, .register 0]⟩

/-- A stretch of code in which every conditional branch stands right behind its compare. -/
inductive FlagGuarded : List SymInstr → Prop
  | nil : FlagGuarded []
  | plain {i : SymInstr} {is : List SymInstr} (hi : ¬ IsConditionalBranch i.op)
      (h : FlagGuarded is) : FlagGuarded (i :: is)
  | compareBranch (i : SymInstr) {is : List SymInstr} (h : FlagGuarded is) :
      FlagGuarded (compareInstr :: i :: is)

theorem FlagGuarded.append {is js : List SymInstr} (h : FlagGuarded is) (hjs : FlagGuarded js) :
    FlagGuarded (is ++ js) := by
  induction h with
  | nil => exact hjs
  | plain hi _ ih => exact .plain hi ih
  | compareBranch i _ ih => exact .compareBranch i ih

/-- The code of `g'` is that of `g` with a guarded stretch after it. -/
def GenState.AppendsGuarded (g g' : GenState) : Prop :=
  ∃ is, g'.code = g.code ++ is ∧ FlagGuarded is

theorem GenState.appendsGuarded_of_code_eq {g g' : GenState} (h : g'.code = g.code) :
    g.AppendsGuarded g' := ⟨[], by simp [h], .nil⟩

theorem GenState.AppendsGuarded.trans {g g' g'' : GenState} (h : g.AppendsGuarded g')
    (h' : g'.AppendsGuarded g'') : g.AppendsGuarded g'' := by
  obtain ⟨is, hcode, his⟩ := h
  obtain ⟨js, hcode', hjs⟩ := h'
  exact ⟨is ++ js, by rw [hcode', hcode, List.append_assoc], his.append hjs⟩

/-! ### The updates -/

theorem GenState.declare_code (g : GenState) (name : String) (initial : Int) :
    (g.declare name initial).code = g.code := by
  unfold GenState.declare
  split <;> rfl

theorem GenState.declare_appendsGuarded (g : GenState) (name : String) (initial : Int) :
    g.AppendsGuarded (g.declare name initial) :=
  GenState.appendsGuarded_of_code_eq (g.declare_code name initial)

theorem GenState.addLabel_appendsGuarded (g : GenState) (entry : Option Nat) :
    g.AppendsGuarded (g.addLabel entry) := GenState.appendsGuarded_of_code_eq rfl

theorem GenState.resolve_appendsGuarded (g : GenState) (k : Nat) : g.AppendsGuarded (g.resolve k) :=
  GenState.appendsGuarded_of_code_eq rfl

theorem GenState.emit_appendsGuarded (g : GenState) {op : Opcode} (operands : List SymOperand)
    (hop : ¬ IsConditionalBranch op) : g.AppendsGuarded (g.emit op operands) :=
  ⟨[⟨op, operands⟩], rfl, .plain hop .nil⟩

/-! ### The lowering functions -/

theorem arithOpcode_not_conditionalBranch (op : ArithOperator) :
    ¬ IsConditionalBranch (arithOpcode op) := by
  cases op <;> decide

theorem lowerAtom_appendsGuarded {g g' : GenState} {dest : Nat} {e : Expression}
    (h : lowerAtom g dest e = .ok g') : g.AppendsGuarded g' := by
  cases e with
  | literal v =>
    cases h
    exact (g.declare_appendsGuarded _ v).trans (GenState.emit_appendsGuarded _ _ (by decide))
  | variableRef name =>
    simp only [lowerAtom] at h
    split at h <;> cases h
    exact g.emit_appendsGuarded _ (by decide)
  | binary op l r => cases h

theorem lowerPair_appendsGuarded {g g' : GenState} {l r : Expression}
    (h : lowerPair g l r = .ok g') : g.AppendsGuarded g' := by
  unfold lowerPair at h
  split at h
  · cases h
  next g1 hl => exact (lowerAtom_appendsGuarded hl).trans (lowerAtom_appendsGuarded h)

theorem lowerExpression_appendsGuarded {g g' : GenState} {dest : Nat} {e : Expression}
    (h : lowerExpression g dest e = .ok g') : g.AppendsGuarded g' := by
  cases e with
  | literal v => exact lowerAtom_appendsGuarded (e := .literal v) h
  | variableRef name => exact lowerAtom_appendsGuarded (e := .variableRef name) h
  | binary op l r =>
    simp only [lowerExpression] at h
    split at h <;> cases h
    next g1 hpair =>
      exact (lowerPair_appendsGuarded hpair).trans
        (g1.emit_appendsGuarded _ (arithOpcode_not_conditionalBranch op))

/-- A condition and the branch over the body (R146, R149, R150): the compare is the last instruction
before the branch. -/
theorem lowerCondition_skip_appendsGuarded {g g' : GenState} {c : Condition}
    (h : lowerCondition g c = .ok g') (k : Nat) :
    g.AppendsGuarded ((g'.addLabel none).emit (skipOpcode c.op) [.label k]) := by
  unfold lowerCondition at h
  split at h <;> cases h
  next g1 hpair =>
    exact (lowerPair_appendsGuarded hpair).trans
      ⟨_, List.append_assoc .., .compareBranch ⟨skipOpcode c.op, [.label k]⟩ .nil⟩

theorem storeAssignment_appendsGuarded {g g' : GenState} {name : String} {value : Expression}
    (h : storeAssignment g name value = .ok g') : g.AppendsGuarded g' := by
  unfold storeAssignment at h
  split at h <;> cases h
  next g1 hvalue =>
    exact (lowerExpression_appendsGuarded hvalue).trans (g1.emit_appendsGuarded _ (by decide))

theorem lowerAssign_appendsGuarded {g g' : GenState} {name : String} {value : Expression}
    (h : lowerAssign g name value = .ok g') : g.AppendsGuarded g' := by
  unfold lowerAssign at h
  split at h
  · exact storeAssignment_appendsGuarded h
  · cases value with
    | literal v =>
      cases h
      exact g.declare_appendsGuarded name v
    | variableRef _ | binary _ _ _ =>
      exact (g.declare_appendsGuarded name 0).trans (storeAssignment_appendsGuarded h)

theorem lowerStatement_appendsGuarded {program : Statement} {g g' : GenState}
    (h : lowerStatement program g = .ok g') : g.AppendsGuarded g' := by
  induction program generalizing g g' with
  | assign name value => exact lowerAssign_appendsGuarded h
  | empty =>
    cases h
    exact GenState.appendsGuarded_of_code_eq rfl
  | seq first rest ihFirst ihRest =>
    simp only [lowerStatement] at h
    split at h
    · cases h
    next g1 hfirst => exact (ihFirst hfirst).trans (ihRest h)
  | ifThen c body ih =>
    simp only [lowerStatement] at h
    split at h
    · cases h
    next g1 hcond =>
      split at h <;> cases h
      next g2 hbody =>
        exact (lowerCondition_skip_appendsGuarded hcond _).trans <|
          (ih hbody).trans (g2.resolve_appendsGuarded _)
  | whileDo c body ih =>
    simp only [lowerStatement] at h
    split at h
    · cases h
    next g1 hcond =>
      split at h <;> cases h
      next g2 hbody =>
        exact (lowerCondition_skip_appendsGuarded hcond _).trans <|
          (GenState.addLabel_appendsGuarded _ _).trans <| (ih hbody).trans <|
          (g2.emit_appendsGuarded _ (by decide)).trans (GenState.resolve_appendsGuarded _ _)

/-! ### The image -/

theorem linkOperand_register {g : GenState} {n i : Nat} {a : Int}
    (h : linkOperand g n (.register i) = .ok (.int a)) : a = i := by
  cases h
  rfl

theorem compareInstr_linksTo {g : GenState} {n : Nat} {e : Opcode × List Int}
    (h : compareInstr.LinksTo g n e) : e = (.sub, [1, 2, 0]) := by
  obtain ⟨op, as⟩ := e
  obtain ⟨rfl, _ | ⟨hl, _ | ⟨hr, _ | ⟨hd, _ | _⟩⟩⟩⟩ := h
  rw [linkOperand_register hl, linkOperand_register hr, linkOperand_register hd]
  rfl

/-- An instruction that is no conditional branch asks nothing of the cell before it. -/
theorem flagProtocol_linkedCell_cons (before : Option ImageCell) {e : Opcode × List Int}
    (rest : List ImageCell) (he : ¬ IsConditionalBranch e.1) :
    flagProtocol before (linkedCell e :: rest) = flagProtocol (some (linkedCell e)) rest := by
  obtain ⟨op, as⟩ := e
  cases op with
  | be => exact absurd (.inl rfl) he
  | bne => exact absurd (.inr rfl) he
  | add | sub | mod | inc | dec | ld | st | mv | jmp | hlt => rfl

/-- Whatever instruction stands behind the compare `SUB 1, 2, 0` has what the protocol asks. -/
theorem flagProtocol_after_compare (e : Opcode × List Int) (rest : List ImageCell) :
    flagProtocol (some (linkedCell (.sub, [1, 2, 0]))) (linkedCell e :: rest) =
      flagProtocol (some (linkedCell e)) rest := by
  obtain ⟨op, as⟩ := e
  cases op <;> rfl

theorem flagProtocol_data (before : Option ImageCell) (vs : List (String × Int)) :
    flagProtocol before (vs.map fun e => ImageCell.data e.2) = true := by
  induction vs generalizing before with
  | nil => rfl
  | cons v vs ih => exact ih _

/-- Linked guarded code keeps the protocol in front of any cells that do. -/
theorem FlagGuarded.flagProtocol_link {g : GenState} {n : Nat} {is : List SymInstr}
    {code : List (Opcode × List Int)} {tail : List ImageCell} (h : FlagGuarded is)
    (hlinks : List.Forall₂ (SymInstr.LinksTo g n) is code)
    (htail : ∀ before, flagProtocol before tail = true) (before : Option ImageCell) :
    flagProtocol before (code.map linkedCell ++ tail) = true := by
  induction h generalizing code before with
  | nil =>
    obtain _ | _ := hlinks
    exact htail before
  | plain hi _ ih =>
    obtain _ | ⟨hlink, hrest⟩ := hlinks
    rw [List.map_cons, List.cons_append, flagProtocol_linkedCell_cons _ _ (hlink.1 ▸ hi)]
    exact ih hrest _
  | compareBranch i _ ih =>
    obtain _ | ⟨hcompare, _ | ⟨-, hrest⟩⟩ := hlinks
    obtain rfl := compareInstr_linksTo hcompare
    rw [List.map_cons, List.map_cons, List.cons_append, List.cons_append,
      flagProtocol_linkedCell_cons _ _ (by decide), flagProtocol_after_compare]
    exact ih hrest _

/-- Settles O55: the code lowered from nothing is guarded, and HLT and the data cells behind it hold
no branch. -/
theorem generatedCodeKeepsFlagProtocol : Obligations.GeneratedCodeKeepsFlagProtocol := by
  intro program image h
  obtain ⟨g, code, hlower, rfl, hlinks⟩ := generate_eq_ok h
  obtain ⟨is, hcode, his⟩ := lowerStatement_appendsGuarded hlower
  have hguarded : FlagGuarded g.code := hcode ▸ his
  rw [List.append_assoc]
  refine hguarded.flagProtocol_link hlinks (fun before => ?_) none
  exact flagProtocol_data (some (.instr (.known .hlt) [])) g.symbols

end Sys2Proof.Machine

/-! ## What every step keeps (spec/20_memory.md R60, spec/15_datapath_control.md R41, R42)

A step changes memory by at most one write inside MEM_SIZE, and starts below STEP_LIMIT, so that it
ends at most there. -/

namespace Sys2Proof.Machine

/-- A write at an address below a bound leaves no entry at or above it. -/
theorem Memory.inside_write {m : Memory} {n a : Nat} (c : Cell) (h : ∀ p ∈ m, p.1 < n)
    (ha : a < n) : ∀ p ∈ m.write a c, p.1 < n := by
  intro p hp
  obtain rfl | hp := Memory.mem_write hp
  · exact ha
  · exact h p hp

/-- What a step that completes can do to the memory: nothing, or one write of a data word inside it.
-/
theorem step_mem_cases {s t : State} (h : step s = .next t) :
    t.mem = s.mem ∨ ∃ k v, k < s.params.memSize ∧ t.mem = s.mem.write k (.data v) := by
  obtain ⟨p, i, u, -, -, hexec, rfl⟩ := step_next h
  obtain hmem | ⟨r, addr, v, rfl, -, -⟩ := exec_mem_cases hexec
  · exact .inl hmem
  · obtain ⟨a, -, h0, h1, rfl⟩ := exec_st_eq_stored hexec
    rw [State.fetched_params] at h1
    exact .inr ⟨addr.toInt.toNat, _, by omega, rfl⟩

/-- A step that completes was taken below the ceiling, and counts one instruction. -/
theorem step_instrCount_le_stepLimit {s t : State} (h : step s = .next t) :
    t.instrCount ≤ s.params.stepLimit := by
  obtain ⟨p, -, -, hp, -⟩ := step_next h
  rw [(stepCountsInstructionAndTicks s t h).1]
  exact hp.belowLimit

/-- Settles O40: memory changes by a write inside it at most, the ceiling bounds the count, and the
fetch pays two ticks. -/
theorem stepKeepsInvariant : Obligations.StepKeepsInvariant := by
  intro s t hs h
  have hparams := parametersAreConstant s t h
  obtain ⟨hinstr, htick⟩ := stepCountsInstructionAndTicks s t h
  have hpaid := hs.twoTicksEach
  have hmemory : t.mem.wf ∧ ∀ p ∈ t.mem, p.1 < s.params.memSize := by
    obtain hmem | ⟨k, v, hk, hmem⟩ := step_mem_cases h
    · exact hmem ▸ ⟨hs.memWf, hs.memInside⟩
    · exact hmem ▸ ⟨Memory.wf_write k _ hs.memWf, Memory.inside_write _ hs.memInside hk⟩
  obtain ⟨hwf, hinside⟩ := hmemory
  exact ⟨hwf, hparams ▸ hinside, hparams ▸ step_instrCount_le_stepLimit h, by omega⟩

/-- Settles O41: the reset memory is empty and both counters are 0. -/
theorem resetMeetsInvariant : Obligations.ResetMeetsInvariant :=
  ⟨State.reset_memory_wf, fun _ hp => (nomatch hp), Nat.zero_le _, le_rfl⟩

/-- Settles O42: an image shorter than MEM_SIZE fills cells inside it only, and the counters are 0.
-/
theorem launchMeetsInvariant : Obligations.LaunchMeetsInvariant := by
  intro image p regs z s h
  obtain ⟨hlen, cells, rfl, rfl⟩ := launch_eq_ok h
  rw [List.length_map] at hlen
  refine ⟨Memory.wf_ofCells 0 cells, fun q hq => ?_, Nat.zero_le _, le_rfl⟩
  obtain ⟨-, hlt, -⟩ := Memory.mem_ofCells hq
  change q.1 < p.memSize
  omega

end Sys2Proof.Machine

/-! ## Every run ends (spec/70_reset_and_hazards.md R200)

Each cycle that completes retires one instruction, so the cycles left to the ceiling go down by one.
-/

namespace Sys2Proof.Machine

theorem runCycles_of_not_running {s : State} (n : Nat) (h : s.status ≠ .running) :
    runCycles n s = s.report := by
  cases n with
  | zero => rfl
  | succ n =>
    cases hs : s.status with
    | running => exact absurd hs h
    | halted | faulted _ => simp only [runCycles, hs]

theorem State.exists_report_of_not_running {s : State} (h : s.status ≠ .running) :
    ∃ r, s.report = some r := by
  cases hs : s.status with
  | running => exact absurd hs h
  | halted | faulted _ => simp [State.report, hs]

theorem runCycles_succ_of_next {s t : State} (n : Nat) (h : step s = .next t) :
    runCycles (n + 1) s = runCycles n t := by
  obtain ⟨p, -, -, hp, -⟩ := step_next h
  simp only [runCycles, hp.running, h]

theorem runCycles_succ_of_fault {s : State} {f : Fault} (n : Nat) (h : step s = .fault f) :
    runCycles (n + 1) s = some (.fatal f) := by
  simp only [runCycles, status_of_step_fault h, h]

/-- A run that may take one cycle more than the ceiling leaves it has a report. -/
theorem exists_report_of_stepLimit_le {n : Nat} {s : State}
    (h : s.params.stepLimit ≤ s.instrCount + n) : ∃ r, runCycles (n + 1) s = some r := by
  induction n generalizing s with
  | zero =>
    by_cases hrun : s.status = .running
    · exact ⟨_, runCycles_succ_of_fault 0 (step_of_ceiling hrun h)⟩
    · rw [runCycles_of_not_running _ hrun]
      exact State.exists_report_of_not_running hrun
  | succ n ih =>
    by_cases hrun : s.status = .running
    · cases hstep : step s with
      | next t =>
        rw [runCycles_succ_of_next _ hstep]
        refine ih ?_
        rw [parametersAreConstant s t hstep, (stepCountsInstructionAndTicks s t hstep).1]
        omega
      | fault f => exact ⟨_, runCycles_succ_of_fault _ hstep⟩
      | refused r => exact absurd hstep (runningMachineIsNeverRefused s r hrun)
    · rw [runCycles_of_not_running _ hrun]
      exact State.exists_report_of_not_running hrun

/-- A report of normal completion is that of a halted state. -/
theorem State.report_eq_halted {s : State} {n k : Nat} {x : Vector Word 5} {z : Bool} {m : Memory}
    (h : s.report = some (.halted n k x z m)) : s.status = .halted ∧ s.instrCount = n := by
  cases hs : s.status with
  | halted =>
    simp only [State.report, hs] at h
    cases h
    exact ⟨rfl, rfl⟩
  | running | faulted _ => simp [State.report, hs] at h

/-- Where a halted run has retired at most STEP_LIMIT instructions, so has a run that ends halted:
only a step halts, and it counts no more than the ceiling. -/
theorem instrCount_le_of_runCycles_halted {n : Nat} {s : State} {c k : Nat} {x : Vector Word 5}
    {z : Bool} {m : Memory} (hs : s.status ≠ .running → s.instrCount ≤ s.params.stepLimit)
    (h : runCycles n s = some (.halted c k x z m)) : c ≤ s.params.stepLimit := by
  induction n generalizing s with
  | zero =>
    obtain ⟨hhalted, rfl⟩ := State.report_eq_halted h
    exact hs (by simp [hhalted])
  | succ n ih =>
    by_cases hrun : s.status = .running
    · cases hstep : step s with
      | next t =>
        rw [runCycles_succ_of_next _ hstep] at h
        have hparams := parametersAreConstant s t hstep
        have hle := step_instrCount_le_stepLimit hstep
        rw [← hparams] at hle ⊢
        exact ih (fun _ => hle) h
      | fault f =>
        rw [runCycles_succ_of_fault _ hstep] at h
        cases h
      | refused r => exact absurd hstep (runningMachineIsNeverRefused s r hrun)
    · rw [runCycles_of_not_running _ hrun] at h
      obtain ⟨-, rfl⟩ := State.report_eq_halted h
      exact hs hrun

/-- Settles O45: the cycles left reach the ceiling, and no completed step passes it. -/
theorem everyRunEnds : Obligations.EveryRunEnds := by
  intro s hrun
  refine ⟨exists_report_of_stepLimit_le (by omega), fun c k x z m h => ?_⟩
  exact instrCount_le_of_runCycles_halted (fun hne => absurd hrun hne) h

end Sys2Proof.Machine

/-! ## The W32 packing, field by field (spec/30_encoding.md R90)

A word is its opcode field over 28 operand bits. A row's mask says that the opcode field is the
row's number and that certain operand bits are zero; which ones, and where the operands lie, depends
on the format alone. -/

namespace Sys2Proof

/-- A four-bit field over the bits below it. -/
def fieldOver (k : Nat) {m : Nat} (f : BitVec 4) (x : BitVec m) (h : k = 4 + m := by rfl) :
    BitVec k :=
  (f ++ x).cast h.symm

section
variable {k m : Nat} {h : k = 4 + m}

theorem exists_eq_fieldOver (x : BitVec k) (h : k = 4 + m) :
    ∃ (f : BitVec 4) (y : BitVec m), x = fieldOver k f y h := by
  subst h
  exact ⟨_, _, BitVec.extractLsb'_append_extractLsb'.symm⟩

theorem extractLsb'_fieldOver_top (f : BitVec 4) (x : BitVec m) :
    (fieldOver k f x h).extractLsb' m 4 = f := by
  subst h
  exact BitVec.extractLsb'_append_eq_left

theorem extractLsb'_fieldOver_below (f : BitVec 4) (x : BitVec m) {lo len : Nat}
    (hlen : lo + len ≤ m) : (fieldOver k f x h).extractLsb' lo len = x.extractLsb' lo len := by
  subst h
  exact BitVec.extractLsb'_append_eq_of_add_le hlen

theorem fieldOver_inj {f g : BitVec 4} {x y : BitVec m} :
    fieldOver k f x h = fieldOver k g y h ↔ f = g ∧ x = y := by
  refine ⟨fun heq => ⟨?_, ?_⟩, fun ⟨hf, hx⟩ => hf ▸ hx ▸ rfl⟩
  · simpa only [extractLsb'_fieldOver_top] using congrArg (BitVec.extractLsb' m 4) heq
  · simpa only [extractLsb'_fieldOver_below _ _ (Nat.zero_add m).le, BitVec.extractLsb'_eq_self]
      using congrArg (BitVec.extractLsb' 0 m) heq

theorem fieldOver_and (f g : BitVec 4) (x y : BitVec m) :
    fieldOver k f x h &&& fieldOver k g y h = fieldOver k (f &&& g) (x &&& y) h := by
  subst h
  exact BitVec.and_append

theorem fieldOver_zero : fieldOver k 0#4 0#m h = 0#k := by
  subst h
  exact BitVec.zero_append_zero

theorem fieldOver_eq_zero_iff {f : BitVec 4} {x : BitVec m} :
    fieldOver k f x h = 0#k ↔ f = 0#4 ∧ x = 0#m := by
  rw [← fieldOver_zero (h := h), fieldOver_inj]

theorem place_fieldOver (lo : Nat) (f : BitVec 4) (x : BitVec m) :
    place lo (fieldOver k f x h) = place (m + lo) f ||| place lo x := by
  subst h
  simp only [fieldOver, BitVec.cast_eq, place, BitVec.setWidth_append_eq_shiftLeft_setWidth_or,
    BitVec.shiftLeft_or_distrib, BitVec.shiftLeft_add]

end

/-- The operand bits that are zero in every word of a format (spec/30_encoding.md R90). -/
def mustBeZero : Format → BitVec 28
  | .rrr => fieldOver 28 0#4 (fieldOver 24 0#4 (fieldOver 20 0#4 (BitVec.allOnes 16)))
  | .rr => fieldOver 28 0#4 (fieldOver 24 0#4 (BitVec.allOnes 20))
  | .ar => 0#28
  | .ra => 0#28
  | .t => fieldOver 28 (BitVec.allOnes 4) 0#24
  | .n => BitVec.allOnes 28

/-- The operand bits of an operand list, as its format lays them out (spec/30_encoding.md R90). -/
def packOperands : Format → List Word → BitVec 28
  | .rrr, [r1, r2, rres] =>
    fieldOver 28 (regField r1) (fieldOver 24 (regField r2) (fieldOver 20 (regField rres) 0#16))
  | .rr, [r, rres] => fieldOver 28 (regField r) (fieldOver 24 (regField rres) 0#20)
  | .ar, [addr, rres] => fieldOver 28 (regField rres) (immField addr)
  | .ra, [r, addr] => fieldOver 28 (regField r) (immField addr)
  | .t, [target] => fieldOver 28 0#4 (immField target)
  | _, _ => 0#28

/-! ### Reading the fields back -/

@[simp] theorem fieldOp_fieldOver (o : BitVec 4) (x : BitVec 28) :
    fieldOp (fieldOver 32 o x) = o :=
  extractLsb'_fieldOver_top o x

@[simp] theorem fieldA_fieldOver (o a : BitVec 4) (x : BitVec 24) :
    fieldA (fieldOver 32 o (fieldOver 28 a x)) = a.setWidth 32 := by
  rw [fieldA, extractLsb'_fieldOver_below _ _ (by decide), extractLsb'_fieldOver_top]

@[simp] theorem fieldB_fieldOver (o a b : BitVec 4) (x : BitVec 20) :
    fieldB (fieldOver 32 o (fieldOver 28 a (fieldOver 24 b x))) = b.setWidth 32 := by
  rw [fieldB, extractLsb'_fieldOver_below _ _ (by decide),
    extractLsb'_fieldOver_below _ _ (by decide), extractLsb'_fieldOver_top]

@[simp] theorem fieldC_fieldOver (o a b c : BitVec 4) (x : BitVec 16) :
    fieldC (fieldOver 32 o (fieldOver 28 a (fieldOver 24 b (fieldOver 20 c x)))) =
      c.setWidth 32 := by
  rw [fieldC, extractLsb'_fieldOver_below _ _ (by decide),
    extractLsb'_fieldOver_below _ _ (by decide), extractLsb'_fieldOver_below _ _ (by decide),
    extractLsb'_fieldOver_top]

@[simp] theorem fieldImm_fieldOver (o a : BitVec 4) (x : BitVec 24) :
    fieldImm (fieldOver 32 o (fieldOver 28 a x)) = x.setWidth 32 := by
  rw [fieldImm, extractLsb'_fieldOver_below _ _ (by decide),
    extractLsb'_fieldOver_below _ _ (by decide), BitVec.extractLsb'_eq_self]

@[simp] theorem regField_setWidth (a : BitVec 4) : regField (a.setWidth 32) = a := by
  rw [regField, BitVec.setWidth_setWidth_of_le _ (by decide), BitVec.setWidth_eq]

@[simp] theorem immField_setWidth (x : BitVec 24) : immField (x.setWidth 32) = x := by
  rw [immField, BitVec.setWidth_setWidth_of_le _ (by decide), BitVec.setWidth_eq]

/-- Operand bits with the format's must-be-zero bits zero are those of the operands read from them.
-/
theorem packOperands_unpackOperands {f : Format} {o : BitVec 4} {x : BitVec 28}
    (h : x &&& mustBeZero f = 0#28) :
    packOperands f (unpackOperands f (fieldOver 32 o x)) = x := by
  obtain ⟨a, m, rfl⟩ := exists_eq_fieldOver (m := 24) x rfl
  cases f with
  | rrr =>
    obtain ⟨b, l, rfl⟩ := exists_eq_fieldOver (m := 20) m rfl
    obtain ⟨c, l, rfl⟩ := exists_eq_fieldOver (m := 16) l rfl
    simp only [mustBeZero, fieldOver_and, fieldOver_eq_zero_iff, BitVec.and_allOnes] at h
    simp [unpackOperands, packOperands, h]
  | rr =>
    obtain ⟨b, l, rfl⟩ := exists_eq_fieldOver (m := 20) m rfl
    simp only [mustBeZero, fieldOver_and, fieldOver_eq_zero_iff, BitVec.and_allOnes] at h
    simp [unpackOperands, packOperands, h]
  | ar | ra => simp [unpackOperands, packOperands]
  | t =>
    simp only [mustBeZero, fieldOver_and, fieldOver_eq_zero_iff, BitVec.and_allOnes] at h
    simp [unpackOperands, packOperands, h]
  | n =>
    rw [mustBeZero, BitVec.and_allOnes] at h
    simp [packOperands, h]

theorem packOperands_and_mustBeZero (f : Format) (ops : List Word) :
    packOperands f ops &&& mustBeZero f = 0#28 := by
  unfold packOperands
  split <;> simp [mustBeZero, fieldOver_and, fieldOver_eq_zero_iff]

/-! ### The encoder and the table -/

theorem place_zero (lo n : Nat) : place lo 0#n = 0#32 := by
  simp [place]

theorem place_zero_self (w : BitVec 32) : place 0 w = w := by
  simp [place]

/-- The encoder writes the opcode number over the operand bits of the format. -/
theorem encode_eq_fieldOver (i : Instr) :
    encode i =
      fieldOver 32 (opcodeNumber i.opcode) (packOperands i.opcode.format i.operands) := by
  rw [← place_zero_self (fieldOver ..)]
  cases i <;>
    simp only [encode, packOperands, Instr.opcode, Opcode.format, Instr.operands, place_fieldOver,
      place_zero, BitVec.or_assoc, BitVec.or_zero, BitVec.zero_or, BitVec.ofNat_eq_ofNat]

theorem w32Row_pattern (op : Opcode) :
    (w32Row op).pattern = fieldOver 32 (opcodeNumber op) 0#28 := by
  cases op <;> rfl

theorem w32Row_mask (op : Opcode) :
    (w32Row op).mask = fieldOver 32 (BitVec.allOnes 4) (mustBeZero op.format) := by
  cases op <;> rfl

/-- A word is a row's when its opcode field is the row's number and its must-be-zero bits are zero.
-/
theorem isMatch_fieldOver_iff {op : Opcode} {o : BitVec 4} {x : BitVec 28} :
    (w32Row op).isMatch (fieldOver 32 o x) = true ↔
      o = opcodeNumber op ∧ x &&& mustBeZero op.format = 0#28 := by
  rw [W32Row.isMatch, beq_iff_eq, w32Row_pattern, w32Row_mask, fieldOver_and, fieldOver_inj,
    BitVec.and_allOnes]

theorem isMatch_encode (i : Instr) : (w32Row i.opcode).isMatch (encode i) = true := by
  rw [encode_eq_fieldOver, isMatch_fieldOver_iff]
  exact ⟨rfl, packOperands_and_mustBeZero _ _⟩

theorem fieldOp_of_isMatch {op : Opcode} {w : BitVec 32} (h : (w32Row op).isMatch w = true) :
    fieldOp w = opcodeNumber op := by
  obtain ⟨o, x, rfl⟩ := exists_eq_fieldOver (m := 28) w rfl
  rw [fieldOp_fieldOver]
  exact (isMatch_fieldOver_iff.1 h).1

theorem opcodeOfNumber_eq_some_iff {n : BitVec 4} {op : Opcode} :
    opcodeOfNumber n = some op ↔ n = opcodeNumber op := by
  revert n
  cases op <;> decide

theorem setWidth_regField_eq_iff {r : Word} : (regField r).setWidth 32 = r ↔ r.toNat < 16 := by
  rw [regField, ← BitVec.toNat_inj, BitVec.toNat_setWidth, BitVec.toNat_setWidth]
  omega

theorem setWidth_immField_eq_iff {a : Word} :
    (immField a).setWidth 32 = a ↔ a.toNat < 16777216 := by
  rw [immField, ← BitVec.toNat_inj, BitVec.toNat_setWidth, BitVec.toNat_setWidth]
  omega

/-- The operands read back from an encoding are the instruction's own exactly when they fit their
fields. -/
theorem unpackOperands_encode_iff (i : Instr) :
    unpackOperands i.opcode.format (encode i) = i.operands ↔ i.Packable := by
  rw [encode_eq_fieldOver]
  cases i <;>
    simp [unpackOperands, packOperands, Instr.opcode, Opcode.format, Instr.operands,
      setWidth_regField_eq_iff, setWidth_immField_eq_iff, Instr.Packable,
      Instr.registerOperands, Instr.addressOperands, and_comm]

/-! ### The decoder -/

theorem unpack_eq_ok_iff {w : BitVec 32} {r : Record} :
    unpack w = .ok r ↔ ∃ op, (w32Row op).isMatch w = true ∧
      r = ⟨.known op, unpackOperands op.format w⟩ := by
  constructor
  · intro h
    unfold unpack at h
    split at h
    · cases h
    · rename_i op _
      split at h
      · rename_i hmatch
        cases h
        exact ⟨op, hmatch, rfl⟩
      · cases h
  · rintro ⟨op, hmatch, rfl⟩
    simp only [unpack, opcodeOfNumber_eq_some_iff.2 (fieldOp_of_isMatch hmatch), hmatch, if_true]

/-- The decoder answers an instruction for its own record only (spec/30_encoding.md R80, R82). -/
theorem decodeRecord_eq_ok_iff {r : Record} {i : Instr} :
    decodeRecord r = .ok i ↔ r = i.toRecord := by
  constructor
  · intro h
    obtain ⟨field, ops⟩ := r
    cases field with
    | unknown name => cases h
    | known op =>
      by_cases hlen : ops.length = op.arity
      · obtain ⟨j, hj, hrecord⟩ := Machine.decodeRecord_of_arity hlen
        rw [hj] at h
        cases h
        exact hrecord.symm
      · rw [Machine.decodeRecord_of_not_arity hlen] at h
        cases h
  · rintro rfl
    cases i <;> rfl

/-- The words that decode to an instruction: those of its row that hold its operands. -/
theorem decodeWord_eq_ok_iff {w : BitVec 32} {i : Instr} :
    decodeWord w = .ok i ↔ (w32Row i.opcode).isMatch w = true ∧
      unpackOperands i.opcode.format w = i.operands := by
  have hunpack : decodeWord w = .ok i ↔ unpack w = .ok i.toRecord := by
    cases hw : unpack w with
    | error e => simp [decodeWord, hw]
    | ok r => simp only [decodeWord, hw, decodeRecord_eq_ok_iff, Except.ok.injEq]
  rw [hunpack, unpack_eq_ok_iff]
  constructor
  · rintro ⟨op, hmatch, hrecord⟩
    injection hrecord with hop hops
    injection hop with hop
    subst hop
    exact ⟨hmatch, hops.symm⟩
  · rintro ⟨hmatch, hops⟩
    exact ⟨i.opcode, hmatch, by rw [hops, Instr.toRecord]⟩

/-- A word of an instruction's row that holds its operands is its encoding. -/
theorem encode_eq_of_isMatch {w : BitVec 32} {i : Instr}
    (hmatch : (w32Row i.opcode).isMatch w = true)
    (hops : unpackOperands i.opcode.format w = i.operands) : encode i = w := by
  obtain ⟨o, x, rfl⟩ := exists_eq_fieldOver (m := 28) w rfl
  obtain ⟨rfl, hzero⟩ := isMatch_fieldOver_iff.1 hmatch
  rw [encode_eq_fieldOver, ← hops, packOperands_unpackOperands hzero]

/-- Settles O51: the encoding is a word of the instruction's row, and operands that fit their fields
are read back. -/
theorem decodeReadsBackEncoding : Obligations.DecodeReadsBackEncoding :=
  fun i h => decodeWord_eq_ok_iff.2 ⟨isMatch_encode i, (unpackOperands_encode_iff i).2 h⟩

/-- Settles O52: a word of the row that holds the operands has no other bits, so it is the encoding,
and operands that are read back from the encoding fit their fields. -/
theorem acceptedWordIsItsEncoding : Obligations.AcceptedWordIsItsEncoding := by
  intro w i h
  obtain ⟨hmatch, hops⟩ := decodeWord_eq_ok_iff.1 h
  have hencode := encode_eq_of_isMatch hmatch hops
  rw [← hencode] at hops
  exact ⟨(unpackOperands_encode_iff i).1 hops, hencode⟩

end Sys2Proof

/-! ## W32 words outside the table (spec/30_encoding.md R91) -/

namespace Sys2Proof.Machine

theorem fieldOp_toNat (w : BitVec 32) : (fieldOp w).toNat = w.toNat / 268435456 := by
  rw [fieldOp, BitVec.extractLsb'_toNat, Nat.shiftRight_eq_div_pow]
  omega

theorem opcodeOfNumber_of_le {n : BitVec 4} (h : 12 ≤ n.toNat) : opcodeOfNumber n = none := by
  revert n
  decide

theorem decodeWord_of_unknown {w : BitVec 32} (h : 12 ≤ w.toNat / 268435456) :
    decodeWord w = .error (.unknownOpcode (.number (w.toNat / 268435456))) := by
  rw [← fieldOp_toNat] at h ⊢
  simp only [decodeWord, unpack, opcodeOfNumber_of_le h]

theorem decodeWord_of_not_isMatch {w : BitVec 32} {op : Opcode} (hop : fieldOp w = opcodeNumber op)
    (h : (w32Row op).isMatch w = false) :
    decodeWord w = .error (.malformedInstruction op none) := by
  simp only [decodeWord, unpack, opcodeOfNumber_eq_some_iff.2 hop, h, Bool.false_eq_true, if_false]

/-- Settles O50: the decoder looks the opcode field up, then tests the row, and its rejection is the
fault of the step. -/
theorem w32WordsRejected : Obligations.W32WordsRejected := by
  refine fun w => ⟨fun h => ?_, fun op hop hrow => ?_⟩
  · have hdecode := decodeWord_of_unknown h
    exact ⟨hdecode, fun s hs => step_of_fetches_of_error hs hdecode⟩
  · have hfield : fieldOp w = opcodeNumber op :=
      BitVec.eq_of_toNat_eq ((fieldOp_toNat w).trans hop)
    have hdecode := decodeWord_of_not_isMatch hfield (beq_false_of_ne hrow)
    exact ⟨hdecode, fun s hs => step_of_fetches_of_error hs hdecode⟩

/-- The word of a table row that is an instruction's encoding decodes to it. -/
theorem decodeTableWord_of_encode_eq {i : Instr} {w : Nat} (hi : i.Packable)
    (h : encode i = BitVec.ofNat 32 w) : decodeTableWord 32 w = some i := by
  have hmod : BitVec.ofNat 32 (w % 2 ^ 32) = encode i := by
    rw [h]
    exact BitVec.eq_of_toNat_eq (by simp)
  rw [decodeTableWord, if_pos le_rfl, hmod, decodeReadsBackEncoding i hi]
  rfl

/-- Settles O49: each word is the encoding of its instruction, which has a W32 form. -/
theorem w32WordsDecode : Obligations.W32WordsDecode := by
  refine ⟨?_, ?_, ?_, ?_, ?_, ?_, ?_, ?_, ?_, ?_, ?_, ?_⟩
  all_goals exact decodeTableWord_of_encode_eq (by decide) (by decide)

end Sys2Proof.Machine

/-! ## The loader and the launch (spec/70_reset_and_hazards.md R190, spec/60_exceptions.md R172) -/

namespace Sys2Proof.Machine

theorem launchState_reg (cells : List Cell) (p : Params) (regs : Vector Word 4) (z : Bool)
    (i : Fin 4) : (launchState cells p regs z).reg i = regs[i.val] := by
  revert i
  simp [launchState, State.reg, Fin.forall_fin_succ]

/-- A cell of an accepted image is the image of the cell that a launch puts at its address. -/
theorem launchState_read_of_getElem? {cells : List Cell} {p : Params} {regs : Vector Word 4}
    {z : Bool} {a : Nat} {c : ImageCell} (h : (cells.map imageOf)[a]? = some c) :
    c = imageOf ((launchState cells p regs z).mem.read a) := by
  rw [List.getElem?_map, Option.map_eq_some_iff] at h
  obtain ⟨d, hd, rfl⟩ := h
  rw [launchState_mem_read, List.getD_eq_getElem?_getD, hd, Option.getD_some]

theorem eq_data_of_imageOf {v : Int} {d : Cell} (h : ImageCell.data v = imageOf d) :
    ∃ w : Word, w.toInt = v ∧ d = .data w := by
  rcases d with w | (r | w)
  · cases h
    exact ⟨w, rfl, rfl⟩
  · cases h
  · cases h

theorem eq_record_of_imageOf {op : OpcodeField} {operands : List ImageOperand} {d : Cell}
    (h : ImageCell.instr op operands = imageOf d) :
    ∃ ws, operands = ws.map operandOf ∧ d = .instr (.record ⟨op, ws⟩) := by
  rcases d with w | (r | w)
  · cases h
  · cases h
    exact ⟨r.operands, rfl, rfl⟩
  · cases h

theorem eq_word_of_imageOf {w : BitVec 32} {d : Cell} (h : ImageCell.word w = imageOf d) :
    d = .instr (.word w) := by
  rcases d with w | (r | w)
  · cases h
  · cases h
  · cases h
    rfl

/-- Settles O2: the accepted image is the image of the cells loaded, and memory reads as those. -/
theorem launchFillsMemory : Obligations.LaunchFillsMemory := by
  intro image p regs z s h
  obtain ⟨hlen, cells, rfl, rfl⟩ := launch_eq_ok h
  refine ⟨hlen, fun a v ha => ?_, fun a op operands ha => ?_, fun a w ha => ?_, fun a ha => ?_,
    rfl, rfl, rfl, rfl, rfl, rfl, rfl, launchState_reg cells p regs z⟩
  · exact eq_data_of_imageOf (launchState_read_of_getElem? ha)
  · exact eq_record_of_imageOf (launchState_read_of_getElem? ha)
  · exact eq_word_of_imageOf (launchState_read_of_getElem? ha)
  · rw [List.length_map] at ha
    rw [launchState_mem_read, List.getD_eq_default _ _ ha, zeroCell]

theorem launch_of_memSize_le {image : List ImageCell} {p : Params} (regs : Vector Word 4) (z : Bool)
    (h : p.memSize ≤ image.length) :
    launch image p regs z = .error (.imageTooLarge image.length p.memSize) :=
  if_pos h

/-- Every cell of an image that launches is the image of a cell. -/
theorem exists_imageOf_of_mem {image : List ImageCell} {p : Params} {regs : Vector Word 4}
    {z : Bool} {s : State} {c : ImageCell} (h : launch image p regs z = .ok s) (hc : c ∈ image) :
    ∃ d, c = imageOf d := by
  obtain ⟨-, cells, rfl, -⟩ := launch_eq_ok h
  obtain ⟨d, -, rfl⟩ := List.mem_map.1 hc
  exact ⟨d, rfl⟩

/-- Every operand of an image that launches is an int32. -/
theorem exists_operandOf_of_mem {image : List ImageCell} {p : Params} {regs : Vector Word 4}
    {z : Bool} {s : State} {op : OpcodeField} {operands : List ImageOperand} {o : ImageOperand}
    (h : launch image p regs z = .ok s) (hc : ImageCell.instr op operands ∈ image)
    (ho : o ∈ operands) : ∃ w, o = operandOf w := by
  obtain ⟨d, hd⟩ := exists_imageOf_of_mem h hc
  obtain ⟨ws, rfl, -⟩ := eq_record_of_imageOf hd
  obtain ⟨w, -, rfl⟩ := List.mem_map.1 ho
  exact ⟨w, rfl⟩

/-- Settles O3: the length is tested first, and the integers of an image that launches are int32. -/
theorem loaderRefusals : Obligations.LoaderRefusals := by
  refine ⟨fun _ _ regs z hlen => launch_of_memSize_le regs z hlen, ?_, ?_, ?_⟩
  · intro image p regs z v hc hv s h
    obtain ⟨d, hd⟩ := exists_imageOf_of_mem h hc
    obtain ⟨w, rfl, -⟩ := eq_data_of_imageOf hd
    exact hv (isInt32_toInt w)
  · intro image p regs z op operands v hc ho hv s h
    obtain ⟨w, hw⟩ := exists_operandOf_of_mem h hc ho
    cases hw
    exact hv (isInt32_toInt w)
  · intro image p regs z op operands name hc ho s h
    obtain ⟨w, hw⟩ := exists_operandOf_of_mem h hc ho
    cases hw

/-- Everything a refused launch can have been refused for (log 11, log 12). -/
theorem launch_eq_error {image : List ImageCell} {p : Params} {regs : Vector Word 4} {z : Bool}
    {e : LoadRefusal} (h : launch image p regs z = .error e) :
    (e = .imageTooLarge image.length p.memSize ∧ p.memSize ≤ image.length) ∨
    (∃ c ∈ image, loadCell c = .error e) ∨
    (e = .memSizeOutOfRange p.memSize ∧ (Config.maxMemSize < p.memSize ∨
      (Config.maxPackedMemSize < p.memSize ∧ ∃ w, ImageCell.word w ∈ image))) := by
  unfold launch at h
  split at h
  · rename_i hlen
    cases h
    exact .inl ⟨rfl, hlen⟩
  · split at h
    · rename_i hsize
      cases h
      exact .inr (.inr ⟨rfl, .inl hsize⟩)
    · split at h
      · rename_i hcells
        cases h
        exact .inr (.inl (loadCells_eq_error hcells))
      · rename_i cells hcells
        split at h
        · rename_i hpacked
          cases h
          rw [Bool.and_eq_true, decide_eq_true_iff, List.any_eq_true] at hpacked
          obtain ⟨⟨d, hd, hword⟩, hsize⟩ := hpacked
          refine .inr (.inr ⟨rfl, .inr ⟨hsize, ?_⟩⟩)
          rw [loadCells_eq_ok_iff.1 hcells]
          rcases d with v | (r | w)
          · cases hword
          · cases hword
          · exact ⟨w, List.mem_map.2 ⟨_, hd, rfl⟩⟩
        · cases h

/-- Settles O56: a launch is refused for its length, for a cell, or for the bound of its MEM_SIZE,
and a cell for an integer or a symbolic operand that stands in it. -/
theorem loaderRefusalsHaveTheirCause : Obligations.LoaderRefusalsHaveTheirCause := by
  intro image p regs z e h
  obtain ⟨rfl, hlen⟩ | ⟨c, hc, hcell⟩ | ⟨rfl, hsize⟩ := launch_eq_error h
  · exact ⟨rfl, rfl, hlen⟩
  · obtain ⟨v, rfl, hv, rfl | ⟨op, os, rfl, ho⟩⟩ | ⟨name, op, os, rfl, rfl, ho⟩ :=
      loadCell_eq_error hcell
    · exact ⟨hv, .inl hc⟩
    · exact ⟨hv, .inr ⟨op, os, hc, ho⟩⟩
    · exact ⟨op, os, hc, ho⟩
  · exact ⟨rfl, hsize⟩

/-- Settles O1: every field named is a launch value, and the empty memory reads as the zero fill. -/
theorem resetHoldsLaunchValues : Obligations.ResetHoldsLaunchValues :=
  ⟨rfl, rfl, rfl, rfl, rfl, fun _ => rfl⟩

end Sys2Proof.Machine

/-! ## The serialised image (spec/30_encoding.md R88) -/

namespace Sys2Proof.Machine

theorem opcodeNames_lookup (op : Opcode) : opcodeNames.lookup (opcodeName op) = some op := by
  cases op <;> decide

theorem opcodeNames_lookup_eq_none {name : String} (h : ∀ op, name ≠ opcodeName op) :
    opcodeNames.lookup name = none := by
  rw [List.lookup_eq_none_iff]
  intro e he
  obtain ⟨op, -, rfl⟩ := List.mem_map.1 he
  exact bne_iff_ne.2 (h op)

/-- Under two distinct keys an instruction object is read by its opcode name. -/
theorem readElement_of_lookup_some {k : JsonKeys} (hk : k.opcode ≠ k.operands) {name : String}
    {op : Opcode} (operands : List ImageOperand) (h : opcodeNames.lookup name = some op) :
    readElement k (.object [(k.opcode, .str name), (k.operands, .list operands)]) =
      .ok (.instr (.known op) operands) := by
  simp [readElement, List.lookup, beq_false_of_ne hk.symm, h]

theorem readElement_of_lookup_none {k : JsonKeys} (hk : k.opcode ≠ k.operands) {name : String}
    (operands : List ImageOperand) (h : opcodeNames.lookup name = none) :
    readElement k (.object [(k.opcode, .str name), (k.operands, .list operands)]) =
      .error (.unknownOpcodeName name) := by
  simp [readElement, List.lookup, beq_false_of_ne hk.symm, h]

theorem readElement_of_writeCell {k : JsonKeys} {c : ImageCell} {e : JsonElement}
    (hk : k.opcode ≠ k.operands) (hc : ∀ w, c ≠ .word w) (h : writeCell k c = some e) :
    readElement k e = .ok c := by
  cases c with
  | data v =>
    cases h
    rfl
  | instr field operands =>
    cases field with
    | known op =>
      cases h
      exact readElement_of_lookup_some hk operands (opcodeNames_lookup op)
    | unknown name => cases h
  | word w => exact absurd rfl (hc w)

theorem readImage_of_writeImage {k : JsonKeys} (hk : k.opcode ≠ k.operands) {cells : List ImageCell}
    {es : List JsonElement} (hcells : ∀ w, ImageCell.word w ∉ cells)
    (h : writeImage k cells = some es) : readImage k es = .ok cells := by
  induction cells generalizing es with
  | nil =>
    cases h
    rfl
  | cons c cells ih =>
    simp only [writeImage] at h
    split at h
    · rename_i e es he hes
      cases h
      have hc : ∀ w, c ≠ .word w := fun w hw => hcells w (hw ▸ List.mem_cons_self)
      have hrest := ih (fun w hw => hcells w (List.mem_cons_of_mem c hw)) hes
      simp only [readImage, readElement_of_writeCell hk hc he, hrest]
    · cases h

/-- Settles O53: each element is read back by its keys and its opcode's name, and no other name is
in the table of names. -/
theorem serialisedImageReadsBack : Obligations.SerialisedImageReadsBack :=
  ⟨fun _ _ _ hk hcells h => readImage_of_writeImage hk hcells h,
    fun _ _ operands hk hname =>
      readElement_of_lookup_none hk operands (opcodeNames_lookup_eq_none hname)⟩

end Sys2Proof.Machine

/-! ## ADD and MOD (spec/40_arithmetic.md R101, R103, R107, R108)

Under each sign convention the remainder is smaller in magnitude than the divisor, so it is an
int32, and it is zero exactly where the divisor divides the dividend. -/

namespace Sys2Proof.Machine

/-- Settles O4: the ALU result is the sum, and Z is the flag of that result. -/
theorem addWritesWrappedSum : Obligations.AddWritesWrappedSum := by
  refine ⟨fun s a b d => ?_, fun s _ _ _ h => exec_of_not_wellFormed s h⟩
  simp only [exec, execAdd, withRegister_gprOperand]
  exact State.aluToReg_eq_next (aluResult_add _ _ _) Iff.rfl

theorem exec_mod_gprOperand (s : State) (a b d : Fin 4) :
    exec (.mod (gprOperand a) (gprOperand b) (gprOperand d)) s =
      s.aluToReg .mod (s.reg a) (s.reg b) .pass .pass .modulo d := by
  simp only [exec, execMod, withRegister_gprOperand]

/-- Settles O6: the ALU result is the remainder of the convention, under its library name. -/
theorem modWritesRemainder : Obligations.ModWritesRemainder := by
  intro s a b d r hb hr
  obtain rfl : r = remainder s.params.modConvention (s.reg a).toInt (s.reg b).toInt :=
    hr.trans (remainder_eq _ _ _).symm
  rw [exec_mod_gprOperand]
  exact State.aluToReg_eq_next (modWord_of_ne _ _ hb) Iff.rfl

/-- Settles O8: the ALU refuses a zero divisor. -/
theorem modByZeroFaults : Obligations.ModByZeroFaults := by
  intro s a b d hb
  rw [exec_mod_gprOperand]
  exact State.aluToReg_of_error (by rw [hb, aluResult_mod, modWord_zero])

/-- A remainder is smaller in magnitude than the divisor: the floored one is the euclidean one,
moved by the divisor where that is negative and does not divide. -/
theorem natAbs_remainder_lt (c : ModConvention) (a : Int) {b : Int} (hb : b ≠ 0) :
    (remainder c a b).natAbs < b.natAbs := by
  have hnonneg : 0 ≤ a % b := Int.emod_nonneg a hb
  have hlt : a % b < b.natAbs := Int.emod_lt a hb
  rw [remainder_eq]
  cases c with
  | floored =>
    have hdvd := Int.dvd_iff_emod_eq_zero (a := b) (b := a)
    simp only [Int.fmod_eq_emod]
    split <;> omega
  | truncated =>
    rw [Int.natAbs_tmod]
    exact Nat.mod_lt _ (Int.natAbs_pos.2 hb)
  | euclidean =>
    change (a % b).natAbs < b.natAbs
    omega

theorem remainder_eq_zero_iff (c : ModConvention) (a b : Int) :
    remainder c a b = 0 ↔ b ∣ a := by
  rw [remainder_eq]
  cases c with
  | floored => exact Int.dvd_iff_fmod_eq_zero.symm
  | truncated => exact Int.dvd_iff_tmod_eq_zero.symm
  | euclidean => exact Int.dvd_iff_emod_eq_zero.symm

theorem remainder_of_nonneg (c : ModConvention) {a b : Int} (ha : 0 ≤ a) (hb : 0 < b) :
    remainder c a b = a % b := by
  rw [remainder_eq]
  cases c with
  | floored => exact Int.fmod_eq_emod_of_nonneg a hb.le
  | truncated => exact Int.tmod_eq_emod_of_nonneg ha
  | euclidean => rfl

theorem toInt_ne_zero {b : Word} (hb : b ≠ 0) : b.toInt ≠ 0 :=
  fun h => hb (BitVec.eq_of_toInt_eq h)

theorem toInt_wrap32_remainder (c : ModConvention) (a : Int) {b : Word} (hb : b ≠ 0) :
    (wrap32 (remainder c a b.toInt)).toInt = remainder c a b.toInt := by
  have hlt := natAbs_remainder_lt c a (toInt_ne_zero hb)
  have hint := isInt32_toInt b
  exact toInt_wrap32 ⟨by omega, by omega⟩

theorem exec_mod_next {s t : State} {a b d : Fin 4}
    (h : exec (.mod (gprOperand a) (gprOperand b) (gprOperand d)) s = .next t) :
    s.reg b ≠ 0 ∧ (t.reg d).toInt =
      remainder s.params.modConvention (s.reg a).toInt (s.reg b).toInt := by
  rw [exec_mod_gprOperand] at h
  obtain ⟨v, hv, rfl⟩ := State.aluToReg_next h
  rw [aluResult_mod] at hv
  obtain ⟨hb, rfl⟩ := modWord_eq_ok hv
  rw [State.tick_reg, State.setReg_reg_same]
  exact ⟨hb, toInt_wrap32_remainder _ _ hb⟩

/-- Settles O7: the remainder is an int32, so the word latched is the remainder itself. -/
theorem modAgreesUnderEveryConvention : Obligations.ModAgreesUnderEveryConvention := by
  intro s t a b d h
  obtain ⟨hb, hvalue⟩ := exec_mod_next h
  have hzero : t.reg d = 0 ↔ (s.reg b).toInt ∣ (s.reg a).toInt := by
    rw [← BitVec.toInt_inj, hvalue]
    exact remainder_eq_zero_iff _ _ _
  refine ⟨?_, ?_, fun ha hpos => ?_⟩
  · rw [hvalue]
    exact natAbs_remainder_lt _ _ (toInt_ne_zero hb)
  · rw [exec_z_of_definesFlag rfl h rfl, decide_eq_decide.2 hzero]
  · rw [hvalue, remainder_of_nonneg _ ha hpos]

end Sys2Proof.Machine

/-! ## MV, HLT and the fatal accesses (spec/41_data_movement.md R122, spec/20_memory.md R62, R64) -/

namespace Sys2Proof.Machine

/-- Settles O13: the state named is the one MV's ending leaves, with the Z it draws. -/
theorem mvCopiesRegister : Obligations.MvCopiesRegister := by
  intro s a d
  refine ⟨_, s.unspecifiedZ_nonArithZ .mv (s.reg a), ?_⟩
  simp only [exec, execMv, withRegister_gprOperand]
  rfl

theorem exec_ld_of_loadData_error {s : State} {addr : Word} {f : Fault} (d : Fin 4)
    (h : s.loadData addr.toInt = .error f) : exec (.ld addr (gprOperand d)) s = .fault f := by
  simp only [exec, execLd, withRegister_gprOperand, effectiveAddress, h, raise]

theorem exec_st_of_outside {s : State} {addr : Word} (a : Fin 4)
    (h : ¬ (0 ≤ addr.toInt ∧ addr.toInt < s.params.memSize)) :
    exec (.st (gprOperand a) addr) s = .fault (.memoryOutOfBounds addr.toInt) := by
  simp only [exec, execSt, withRegister_gprOperand, effectiveAddress,
    State.memWrite_of_outside _ h, raise]

/-- Settles O15: LD and ST make the same bounds check before they touch the cell. -/
theorem accessOutOfBoundsFaults : Obligations.AccessOutOfBoundsFaults := by
  intro s addr r h
  have hout : ¬ (0 ≤ addr.toInt ∧ addr.toInt < s.params.memSize) := by omega
  exact ⟨exec_ld_of_loadData_error r (State.loadData_of_outside hout), exec_st_of_outside r hout⟩

/-- Settles O16: the data read of LD refuses an instruction cell. -/
theorem loadOfInstructionCellFaults : Obligations.LoadOfInstructionCellFaults :=
  fun _ _ _ d h0 h1 hcell => exec_ld_of_loadData_error d (State.loadData_of_instr h0 h1 hcell)

/-- Settles O20: the state named is the halted one, with HLT's ticks paid. -/
theorem hltEndsTheRun : Obligations.HltEndsTheRun := exec_hlt

end Sys2Proof.Machine

/-! ## Faults of the cycle before the decode (spec/15_datapath_control.md R42, R44, R135) -/

namespace Sys2Proof.Machine

/-- Settles O32: a cycle tests the ceiling first. -/
theorem ceilingFaultsBeforeFetch : Obligations.CeilingFaultsBeforeFetch :=
  fun _ hrun hlimit => step_of_ceiling hrun hlimit

/-- Settles O33: below the ceiling a fetch that fails is the fault of the step. -/
theorem fetchFaults : Obligations.FetchFaults := by
  refine fun s hrun hlimit => ⟨fun h => ?_, fun v h0 h1 hcell => ?_⟩
  · exact step_of_fetch_error hrun hlimit (State.fetch_of_outside (by omega))
  · exact step_of_fetch_error hrun hlimit (State.fetch_of_data h0 h1 hcell)

/-- Settles O46: the fetch overwrites the latch before anything reads it. -/
theorem latchNeverSurvives : Obligations.LatchNeverSurvives := fun _ _ => rfl

/-- A step that runs a JMP: pc is the target, one instruction more is retired, memory is as it was.
-/
theorem step_of_jmp {s : State} {p : Payload} {target : Word} (h : s.Fetches p)
    (hdecode : decodePayload p = .ok (.jmp target)) :
    ∃ t, step s = .next t ∧ t.pc = target ∧ t.status = .running ∧
      t.instrCount = s.instrCount + 1 ∧ t.params = s.params ∧ t.mem = s.mem :=
  ⟨_, step_of_fetches h hdecode, State.setPc_pc _ _, h.running, rfl, rfl, rfl⟩

/-- Settles O22: the jump is retired with pc at the target, and the next cycle fetches from there.
-/
theorem badTargetFaultsAtNextFetch : Obligations.BadTargetFaultsAtNextFetch := by
  intro s p target hp hdecode hlimit
  obtain ⟨t, hstep, hpc, hrun, hcount, hparams, hmem⟩ := step_of_jmp hp hdecode
  have hfaults := fetchFaults t hrun (by rwa [hcount, hparams])
  rw [hpc, hparams, hmem] at hfaults
  exact ⟨t, hstep, hpc, hfaults⟩

end Sys2Proof.Machine

/-! ## Register operands (spec/10_state.md R13, spec/60_exceptions.md R173) -/

namespace Sys2Proof.Machine

/-- The check of a legal operand in front of the checks of the rest: it raises nothing of its own.
-/
theorem withRegister_ne_fault_of_all {r : Word} {rs : List Word} {k : Fin 4 → Result} {f : Fault}
    (h : (r :: rs).all (fun r => decide (IsRegisterIndex r)) = true)
    (hk : ∀ i, rs.all (fun r => decide (IsRegisterIndex r)) = true → k i ≠ .fault f) :
    withRegister r k ≠ .fault f := by
  rw [List.all_cons, Bool.and_eq_true, decide_eq_true_iff] at h
  obtain ⟨hr, hrs⟩ := h
  obtain ⟨i, rfl⟩ := exists_gprOperand hr
  rw [withRegister_gprOperand]
  exact hk i hrs

theorem State.aluToReg_ne_registerFault {s : State} {op : Opcode} {l r : Word} {tl tr : Transform}
    {aop : AluOp} {d : Fin 4} {k : Int} :
    s.aluToReg op l r tl tr aop d ≠ .fault (.registerIndexOutOfBounds k) := by
  cases hv : aluResult s.params.modConvention l r tl tr aop with
  | ok v => simp [State.aluToReg_of_ok hv]
  | error f => simp [State.aluToReg_of_error hv, aluResult_eq_error hv]

theorem State.loadData_ne_registerFault (s : State) (a k : Int) :
    s.loadData a ≠ .error (.registerIndexOutOfBounds k) := by
  by_cases hin : 0 ≤ a ∧ a < s.params.memSize
  · cases hcell : s.mem.read a.toNat with
    | data v => simp [State.loadData_of_data hin.1 hin.2 hcell]
    | instr p => simp [State.loadData_of_instr hin.1 hin.2 hcell]
  · simp [State.loadData_of_outside hin]

theorem State.memWrite_ne_registerFault (s : State) (a k : Int) (v : Word) :
    s.memWrite a v ≠ .error (.registerIndexOutOfBounds k) := by
  by_cases hin : 0 ≤ a ∧ a < s.params.memSize
  · simp [State.memWrite_of_inside v hin.1 hin.2]
  · simp [State.memWrite_of_outside v hin]

/-- With legal register operands nothing else of an instruction raises `RegisterIndexOutOfBounds`.
-/
theorem exec_ne_registerFault {i : Instr} (s : State) (k : Int) (h : i.WellFormed) :
    exec i s ≠ .fault (.registerIndexOutOfBounds k) := by
  cases i with
  | add _ _ _ | sub _ _ _ | mod _ _ _ =>
    exact withRegister_ne_fault_of_all h fun _ h => withRegister_ne_fault_of_all h fun _ h =>
      withRegister_ne_fault_of_all h fun _ _ => State.aluToReg_ne_registerFault
  | inc _ _ | dec _ _ =>
    exact withRegister_ne_fault_of_all h fun _ h => withRegister_ne_fault_of_all h fun _ _ =>
      State.aluToReg_ne_registerFault
  | ld addr rres =>
    refine withRegister_ne_fault_of_all h fun d _ hfault => ?_
    split at hfault
    · rename_i f hload
      cases hfault
      exact s.loadData_ne_registerFault _ k hload
    · cases hfault
  | st r addr =>
    refine withRegister_ne_fault_of_all h fun a _ hfault => ?_
    split at hfault
    · rename_i f hwrite
      cases hfault
      exact s.memWrite_ne_registerFault _ k _ hwrite
    · cases hfault
  | mv _ _ =>
    exact withRegister_ne_fault_of_all h fun _ h => withRegister_ne_fault_of_all h fun _ _ => nofun
  | be _ | bne _ | jmp _ | hlt => exact nofun

/-- Settles O28: the operands are checked in order before anything else, and nothing but a failed
check raises the condition. -/
theorem illegalRegisterOperandFaults : Obligations.IllegalRegisterOperandFaults :=
  ⟨fun _ s _ h => exec_of_find?_illegal s h, fun _ s k h => exec_ne_registerFault s k h⟩

end Sys2Proof.Machine
